-- ==== Sys2Proof/Word.lean ====
section
/-! DEFINITION. The machine word: every register, command word and memory word is 32 bits, bit 0 the least
significant (00_scope R13). -/

namespace Sys2Proof

/-- A 32-bit word (00_scope R13; `WORD` of R5). -/
abbrev Word := BitVec 32

end Sys2Proof
end

