-- ==== Sys2Proof/Config.lean ====
section
/-! DEFINITION. What is fixed for one CORE: the open parameters of 00_scope R5 with their admissibility, and the
free value the spec leaves unspecified (93_implementation_defined U1). -/

namespace Sys2Proof

/-- The parameter `TIE`: what `rnd` does at an exact half (00_scope R5, R10). -/
inductive Tie where
  | even
  | up
deriving DecidableEq, Repr

/-- One entry of the kernel table (10_state R37, 44 R131): `dim`, the matrix `K` as the list of its rows `K[i]`, and
the divisor. The weight of cell `(i, j)` is `K[i][j] / div`. -/
structure Kernel where
  dim  : Nat
  rows : List (List Int)
  div  : Nat
deriving DecidableEq, Repr

/-- Tests (1) to (3) of 44 R131: dimension 3 or 9, a square matrix of 16-bit signed weights, a positive 16-bit
divisor. -/
def Kernel.admissible (K : Kernel) : Bool :=
  (K.dim == 3 || K.dim == 9)
  && K.rows.length == K.dim
  && K.rows.all (fun r => r.length == K.dim && r.all fun k => decide (-(2 ^ 15) ≤ k ∧ k < 2 ^ 15))
  && decide (1 ≤ K.div ∧ K.div < 2 ^ 16)

/-- The unit impulse of dimension `dim`: `div` at the centre, 0 elsewhere (44 R131 (4)). -/
def Kernel.impulseRows (dim div : Nat) : List (List Int) :=
  (List.range dim).map fun i => (List.range dim).map fun j =>
    if i = (dim - 1) / 2 ∧ j = (dim - 1) / 2 then (div : Int) else 0

/-- The open parameters of an instance (00_scope R5). `BUS_MAP` is used by no rule and left out (U8). -/
structure Params where
  srcCap : Nat
  dstCap : Nat
  tie    : Tie
  krom   : Vector Kernel 11
  htt    : Vector (Vector Nat 3) 3
deriving DecidableEq, Repr

/-- The admissible kernel tables (44 R131): (1) to (3) for every entry, (4) entry 10 is the unit impulse, (5) entry 0
is nine ones over 9. -/
def Params.kromAdmissible (p : Params) : Bool :=
  p.krom.toList.all Kernel.admissible
  && p.krom[10].rows == Kernel.impulseRows p.krom[10].dim p.krom[10].div
  && p.krom[0] == ⟨3, [[1, 1, 1], [1, 1, 1], [1, 1, 1]], 9⟩

/-- `HTT` contains each of the integers 0 to 8 exactly once (43 R121). -/
def Params.httAdmissible (p : Params) : Bool :=
  (List.range 9).all fun n => (p.htt.toList.flatMap Vector.toList).count n == 1

/-- The parameter values the spec says anything about (U5 to U7): positive capacities, an admissible kernel table, an
arrangement of 0 to 8. -/
def Params.admissible (p : Params) : Bool :=
  decide (0 < p.srcCap) && decide (0 < p.dstCap) && p.kromAdmissible && p.httAdmissible

/-- An instance of the CORE: admissible parameters. The spec says nothing of a CORE built with others (U5, U6), so
none can be written down. -/
structure Config where
  params     : Params
  admissible : params.admissible = true
deriving DecidableEq, Repr

/-- The two memories (10_state R34, R35). -/
inductive Space where
  | src
  | dst
deriving DecidableEq, Repr

/-- FREE VALUE (U1; 10_state R33, 70 R210; log 2): the word at an address of a memory, unspecified since the
`draw`-th reset. It has no body, so nothing can be proved of its value. -/
opaque Config.unspecifiedWord : (draw : Nat) → Space → (address : Nat) → Word

end Sys2Proof
end

