-- ==== Sys2Proof/Machine/Arith.lean ====
section
/-! DEFINITION. The exact arithmetic of 00_scope section 5.1: floor division, Euclidean remainder, truncation,
rounding, clipping. A rational is handed over as a numerator and a positive denominator; that the two readings
agree is stated for the provers (log 21). -/

namespace Sys2Proof.Machine

/-- `a div n` (00_scope R8): the floor of `a / n`, for `n > 0`. -/
def floorDiv (a : Int) (n : Nat) : Int := a / (n : Int)

/-- `a mod n` (00_scope R8): in `0 .. n − 1` for every `a`, negative ones included. -/
def modulo (a : Int) (n : Nat) : Int := a - floorDiv a n * n

/-- `trunc(N / D)` (00_scope R9): the integer part toward zero. -/
def trunc (N : Int) (D : Nat) : Int := if 0 ≤ N then floorDiv N D else -floorDiv (-N) D

/-- `rnd` at an exact half between `n` and `n + 1` (00_scope R10). -/
def roundTie (tie : Tie) (n : Int) : Int :=
  match tie with
  | .even => if n % 2 = 0 then n else n + 1
  | .up => n + 1

/-- `rnd(N / D)` (00_scope R10) in its integer form: `n = N div D`, `r = N mod D`, and the cases `2r < D`, `2r > D`,
`2r = D`. -/
def rnd (tie : Tie) (N : Int) (D : Nat) : Int :=
  let n := floorDiv N D
  let r := modulo N D
  if 2 * r < D then n else if 2 * r > D then n + 1 else roundTie tie n

/-- `clip(n)` (00_scope R11), a natural number because its result lies in `0 .. 255`. -/
def clip (n : Int) : Nat := if n < 0 then 0 else if n > 255 then 255 else n.toNat

/-- `rnd(q)` (00_scope R10) in its rational form: `n = floor(q)`, `f = q − n`, and the cases `f < 1/2`, `f > 1/2`,
`f = 1/2`. The machine uses the integer form `rnd`. -/
def rndRat (tie : Tie) (q : ℚ) : Int :=
  let n := q.floor
  let f := q - n
  if f < 1 / 2 then n else if f > 1 / 2 then n + 1 else roundTie tie n

/-- `trunc(q)` (00_scope R9) in its rational form. The machine uses the integer form `trunc`. -/
def truncRat (q : ℚ) : Int := if 0 ≤ q then q.floor else -(-q).floor

end Sys2Proof.Machine
end

