-- ==== Sys2Proof/Syntax.lean ====
section
/-! DEFINITION. The closed enumeration of operations (30_encoding R82), one constructor per row of the opcode
table. -/

namespace Sys2Proof

/-- One operation of the CORE, named by its mnemonic (30_encoding R82). Only `adjust` has operands: the two
immediates `new_min` and `new_max`, unsigned integers that the operation computes with in ℤ (R84, 42 R112). -/
inductive Instr where
  | grayscale
  | adjust (newMin newMax : Nat)
  | halftone
  | mean
  | gaussian
  | sharpen
  | laplacian
  | emboss
  | motion
  | xEdge
  | yEdge
  | brighten
  | darken
  | identity
  | rot90
  | rotm90
  | rot180
  | horFlip
  | vertFlip
  | downscale
  | negate
deriving DecidableEq, Repr

end Sys2Proof
end

