-- ==== Sys2Proof/WellFormed.lean ====
section
/-! DEFINITION. When a term of `Instr` is an operation the encoding can express. -/

namespace Sys2Proof

/-- An immediate fits its 8-bit unsigned field (30_encoding R84); a larger operand is an assembly error, not an
encoding (R89). -/
def Instr.immediateFits (n : Nat) : Bool := decide (n ≤ 255)

/-- The well-formed operations: both immediates of `adjust` fit (any pair that fits is legal, R84); every other
operation has no operand. -/
def Instr.wellFormed : Instr → Bool
  | .adjust newMin newMax => Instr.immediateFits newMin && Instr.immediateFits newMax
  | .grayscale | .halftone | .mean | .gaussian | .sharpen | .laplacian | .emboss | .motion | .xEdge | .yEdge
  | .brighten | .darken | .identity | .rot90 | .rotm90 | .rot180 | .horFlip | .vertFlip | .downscale
  | .negate => true

end Sys2Proof
end

