-- ==== Sys2Proof/Decode.lean ====
section
/-! DEFINITION. The command word: its fields, the decoder, the encoder and the opcode table (30_encoding). -/

namespace Sys2Proof

/-- `w[hi:lo]`: the unsigned integer formed by bits `hi` down to `lo` (00_scope R13). -/
def bits (w : Word) (hi lo : Nat) : Nat := w.toNat / 2 ^ lo % 2 ^ (hi + 1 - lo)

/-- `zext_32(v)`: the unsigned value `v` in the low bits of a word (00_scope R13). -/
def zext32 (v : Nat) : Word := BitVec.ofNat 32 v

/-- The two lookup errors, the only results of `Decode` besides an operation (30_encoding R86). -/
inductive DecodeError where
  /-- Class 1, function 11 to 15 (60_exceptions R183). -/
  | unknownKernel
  /-- Every other word that matches no row (60_exceptions R184). -/
  | unknownOperation
deriving DecidableEq, Repr

/-- The operation of kernel function `fn`, in the order of the kernel table (30_encoding R83, 44 R130). -/
def kernelOperation (fn : Nat) : Except DecodeError Instr :=
  match fn with
  | 0 => .ok .mean
  | 1 => .ok .gaussian
  | 2 => .ok .sharpen
  | 3 => .ok .laplacian
  | 4 => .ok .emboss
  | 5 => .ok .motion
  | 6 => .ok .xEdge
  | 7 => .ok .yEdge
  | 8 => .ok .brighten
  | 9 => .ok .darken
  | 10 => .ok .identity
  | _ => .error .unknownKernel

/-- The operand-free operation of a class 0 or class 2 opcode (30_encoding R82, R83). -/
def plainOperation (opc : Nat) : Except DecodeError Instr :=
  match opc with
  | 0x01 => .ok .grayscale
  | 0x03 => .ok .halftone
  | 0x20 => .ok .rot90
  | 0x21 => .ok .rotm90
  | 0x22 => .ok .rot180
  | 0x23 => .ok .horFlip
  | 0x24 => .ok .vertFlip
  | 0x25 => .ok .downscale
  | 0x26 => .ok .negate
  | _ => .error .unknownOperation

/-- `Decode(cmd)` (30_encoding R86): total on 32-bit words. In class 1 an undefined function is tested before the
must-be-zero bits. -/
def decode (cmd : Word) : Except DecodeError Instr :=
  if bits cmd 7 4 = 0x1 then
    if bits cmd 3 0 > 10 then .error .unknownKernel
    else if bits cmd 31 8 ≠ 0 then .error .unknownOperation
    else kernelOperation (bits cmd 3 0)
  else if bits cmd 7 0 = 0x02 then
    if bits cmd 31 24 ≠ 0 then .error .unknownOperation
    else .ok (.adjust (bits cmd 15 8) (bits cmd 23 16))
  else if bits cmd 31 8 ≠ 0 then .error .unknownOperation
  else plainOperation (bits cmd 7 0)

/-- The opcode `OPC` of an operation (30_encoding R82). -/
def Instr.opcode : Instr → Nat
  | .grayscale => 0x01
  | .adjust _ _ => 0x02
  | .halftone => 0x03
  | .mean => 0x10
  | .gaussian => 0x11
  | .sharpen => 0x12
  | .laplacian => 0x13
  | .emboss => 0x14
  | .motion => 0x15
  | .xEdge => 0x16
  | .yEdge => 0x17
  | .brighten => 0x18
  | .darken => 0x19
  | .identity => 0x1A
  | .rot90 => 0x20
  | .rotm90 => 0x21
  | .rot180 => 0x22
  | .horFlip => 0x23
  | .vertFlip => 0x24
  | .downscale => 0x25
  | .negate => 0x26

/-- `ARG0`, bits 15:8 (30_encoding R80, R84). -/
def Instr.arg0 : Instr → Nat
  | .adjust newMin _ => newMin
  | _ => 0

/-- `ARG1`, bits 23:16 (30_encoding R80, R84). -/
def Instr.arg1 : Instr → Nat
  | .adjust _ newMax => newMax
  | _ => 0

/-- The command word of an operation (30_encoding R80 to R82): `OPC` in bits 7:0, `ARG0` in 15:8, `ARG1` in 23:16,
`RSV` zero. -/
def encode (i : Instr) : Word := zext32 (i.opcode + 256 * i.arg0 + 65536 * i.arg1)

/-- The mnemonic of an operation, the document's name in lower case (30_encoding R82, R89). -/
def Instr.mnemonic : Instr → String
  | .grayscale => "grayscale"
  | .adjust _ _ => "adjust"
  | .halftone => "halftone"
  | .mean => "mean"
  | .gaussian => "gaussian"
  | .sharpen => "sharpen"
  | .laplacian => "laplacian"
  | .emboss => "emboss"
  | .motion => "motion"
  | .xEdge => "x_edge"
  | .yEdge => "y_edge"
  | .brighten => "brighten"
  | .darken => "darken"
  | .identity => "identity"
  | .rot90 => "rot90"
  | .rotm90 => "rotm90"
  | .rot180 => "rot180"
  | .horFlip => "hor_flip"
  | .vertFlip => "vert_flip"
  | .downscale => "downscale"
  | .negate => "negate"

/-- One row of the opcode table of 30_encoding R82: a word `cmd` selects the row when `cmd AND mask = pattern`. -/
structure OpcodeRow where
  mnemonic : String
  mask : Word
  pattern : Word
deriving DecidableEq, Repr

/-- The table of 30_encoding R82, row by row as the spec prints it. -/
def opcodeTable : List OpcodeRow :=
  [⟨"grayscale", 0xFFFFFFFF#32, 0x00000001#32⟩,
   ⟨"adjust", 0xFF0000FF#32, 0x00000002#32⟩,
   ⟨"halftone", 0xFFFFFFFF#32, 0x00000003#32⟩,
   ⟨"mean", 0xFFFFFFFF#32, 0x00000010#32⟩,
   ⟨"gaussian", 0xFFFFFFFF#32, 0x00000011#32⟩,
   ⟨"sharpen", 0xFFFFFFFF#32, 0x00000012#32⟩,
   ⟨"laplacian", 0xFFFFFFFF#32, 0x00000013#32⟩,
   ⟨"emboss", 0xFFFFFFFF#32, 0x00000014#32⟩,
   ⟨"motion", 0xFFFFFFFF#32, 0x00000015#32⟩,
   ⟨"x_edge", 0xFFFFFFFF#32, 0x00000016#32⟩,
   ⟨"y_edge", 0xFFFFFFFF#32, 0x00000017#32⟩,
   ⟨"brighten", 0xFFFFFFFF#32, 0x00000018#32⟩,
   ⟨"darken", 0xFFFFFFFF#32, 0x00000019#32⟩,
   ⟨"identity", 0xFFFFFFFF#32, 0x0000001A#32⟩,
   ⟨"rot90", 0xFFFFFFFF#32, 0x00000020#32⟩,
   ⟨"rotm90", 0xFFFFFFFF#32, 0x00000021#32⟩,
   ⟨"rot180", 0xFFFFFFFF#32, 0x00000022#32⟩,
   ⟨"hor_flip", 0xFFFFFFFF#32, 0x00000023#32⟩,
   ⟨"vert_flip", 0xFFFFFFFF#32, 0x00000024#32⟩,
   ⟨"downscale", 0xFFFFFFFF#32, 0x00000025#32⟩,
   ⟨"negate", 0xFFFFFFFF#32, 0x00000026#32⟩]

/-- `cmd AND mask = pattern` (30_encoding R82). -/
def OpcodeRow.selects (r : OpcodeRow) (cmd : Word) : Bool := cmd &&& r.mask == r.pattern

/-- The first row of the table that a word selects. -/
def tableRow (cmd : Word) : Option OpcodeRow := opcodeTable.find? fun r => r.selects cmd

/-- The operation the decoder reads from the word whose bits are `w`, all bits above `nbits` zero. A command is one
word in one register, so no byte order enters (20_memory R60). -/
def decodeTableWord (nbits w : Nat) : Option Instr :=
  match decode (zext32 (w % 2 ^ nbits)) with
  | .ok i => some i
  | .error _ => none

end Sys2Proof
end

