-- ==== Sys2Proof/Machine/Tables.lean ====
section
/-! DEFINITION. The two read-only tables an operation consults (10_state R37, R38), and the reference values of the
open parameters (00_scope R5). -/

namespace Sys2Proof

/-- `K[i][j]` (44 R132): the first index runs along the image's columns, the second along its rows. -/
def Kernel.weight (K : Kernel) (i j : Nat) : Int := (K.rows.getD i []).getD j 0

/-- The centre index `(dim − 1) / 2` (44 R132). -/
def Kernel.center (K : Kernel) : Nat := (K.dim - 1) / 2

/-- `KROM[k]` (10_state R37). -/
def Config.kernel (c : Config) (k : Fin 11) : Kernel := c.params.krom[k]

/-- `HTT[a][b]`, `a` the row and `b` the column within the tile (43 R121). -/
def Config.threshold (c : Config) (a b : Fin 3) : Nat := (c.params.htt[a])[b]

/-- `MASK[k][a][b]`: 1 if `HTT[a][b] < k`, else 0 (10_state R38, 43 R121). -/
def Config.mask (c : Config) (k : Nat) (a b : Fin 3) : Nat := if c.threshold a b < k then 1 else 0

namespace Machine

/-- A 3×3 kernel. -/
def kernel3 (rows : List (List Int)) (div : Nat) : Kernel := ⟨3, rows, div⟩

/-- The 9×9 unit diagonal of the reference `motion` kernel (44 R133). -/
def unitDiagonal9 : List (List Int) :=
  (List.range 9).map fun i => (List.range 9).map fun j => if i = j then (1 : Int) else 0

/-- `KROM_REF` (44 R133). Entries 0 and 10 follow from R131; the others are the spec's reference choice. -/
def kromRef : Vector Kernel 11 :=
  #v[kernel3 [[1, 1, 1], [1, 1, 1], [1, 1, 1]] 9,
     kernel3 [[1, 2, 1], [2, 4, 2], [1, 2, 1]] 16,
     kernel3 [[0, -1, 0], [-1, 5, -1], [0, -1, 0]] 1,
     kernel3 [[0, 1, 0], [1, -4, 1], [0, 1, 0]] 1,
     kernel3 [[-2, -1, 0], [-1, 1, 1], [0, 1, 2]] 1,
     ⟨9, unitDiagonal9, 9⟩,
     kernel3 [[-1, -2, -1], [0, 0, 0], [1, 2, 1]] 1,
     kernel3 [[-1, 0, 1], [-2, 0, 2], [-1, 0, 1]] 1,
     kernel3 [[0, 0, 0], [0, 3, 0], [0, 0, 0]] 2,
     kernel3 [[0, 0, 0], [0, 1, 0], [0, 0, 0]] 2,
     kernel3 [[0, 0, 0], [0, 1, 0], [0, 0, 0]] 1]

/-- `HTT_REF` (43 R122). -/
def httRef : Vector (Vector Nat 3) 3 := #v[#v[6, 8, 4], #v[1, 0, 3], #v[5, 2, 7]]

/-- The reference column of the parameter table (00_scope R5). -/
def referenceParams : Params :=
  ⟨4096, 36864, .even, kromRef, httRef⟩

/-- The instance with the reference values: `KROM_REF` is admissible (44 R133), `HTT_REF` an arrangement of 0 to 8. -/
def referenceConfig : Config := ⟨referenceParams, by decide +kernel⟩

end Machine

end Sys2Proof
end

