-- ==== Sys2Proof/Machine/State.lean ====
section
/-! DEFINITION. The state of the CORE (10_state R20), the events that act on it (20_memory R50, R51), the five
errors (60_exceptions R180), the outcomes of a step, and the state after reset (10_state R33). -/

namespace Sys2Proof.Machine

/-- A memory of 32-bit words (10_state R34, R35): the words written since the last reset, addresses strictly rising.
The addressable unit is the word (20_memory R60), and an unlisted word is unspecified (log 2, log 3). -/
abbrev Memory := List (Nat × Word)

/-- The five errors of an operation (00_scope R16, 60_exceptions R180). -/
inductive ErrorKind where
  /-- The source buffer is malformed or the result does not fit (R181). -/
  | shape
  /-- `adjust` or `halftone` on degenerate input (R182). -/
  | domain
  /-- Class 1, function 11 to 15 (R183). -/
  | unknownKernel
  /-- Any other word that is no operation (R184). -/
  | unknownOperation
  /-- A halftone index above 9; unreachable (R185, 43 R125). -/
  | indexDefect
deriving DecidableEq, Repr

/-- A host transaction (20_memory R51): `n` a register number, `a` a word address, both of any size, `v` a word. -/
inductive Transaction where
  | regWrite (n : Nat) (v : Word)
  | regRead (n : Nat)
  | srcWrite (a : Nat) (v : Word)
  | srcRead (a : Nat)
  | dstRead (a : Nat)
  | dstWrite (a : Nat) (v : Word)
  | reset
deriving DecidableEq, Repr

/-- An event of the total order (00_scope R6, 20_memory R68): a host transaction, or the engine's turn, which is
COMPLETE when a command is held (log 5). -/
inductive Event where
  | host (t : Transaction)
  | engine
deriving DecidableEq, Repr

/-- The ways the machine can stop with a fault: none. Nothing the spec describes stops the CORE (20_memory R59,
60_exceptions R188: an error is a result in STATUS); log 12. No constructor, so no meaning can raise one. -/
inductive Fault where
deriving DecidableEq, Repr

/-- The ways the model can refuse. -/
inductive Refusal where
  /-- Only an arm of `exec` without a meaning would answer this (safe); there is none. -/
  | notModelled (mnemonic : String)
deriving DecidableEq, Repr

/-- The state. The first ten fields are the spec's, exactly (10_state R20). The last four are the model's own:
the instance's parameters, constant (R40; log 1); the number of resets, which makes each reset's unspecified memory
contents a fresh free value (R33; log 2); the events still to come, next one first (R40, 20_memory R68; log 4); and
the word the last host transaction returned (R51; log 6). -/
structure State where
  cmd      : Word
  status   : Word
  srcH     : Word
  srcW     : Word
  srcCfg   : Word
  dstH     : Word
  dstW     : Word
  dstCfg   : Word
  src      : Memory
  dst      : Memory
  config   : Config
  draws    : Nat
  schedule : List Event
  response : Option Word
deriving DecidableEq, Repr

/-- The state after reset (10_state R33): eight registers zero, every word of both memories unspecified. The model's
own fields: the reference parameters (log 1), no earlier reset (log 2), nothing scheduled (log 4), nothing returned
(log 6). -/
def State.reset : State where
  cmd      := 0
  status   := 0
  srcH     := 0
  srcW     := 0
  srcCfg   := 0
  dstH     := 0
  dstW     := 0
  dstCfg   := 0
  src      := []
  dst      := []
  config   := referenceConfig
  draws    := 0
  schedule := []
  response := none

end Sys2Proof.Machine
end

