-- ==== Sys2Proof/Machine/Flags.lean ====
section
/-! DEFINITION. The register `STATUS` (10_state R24): its fields, read and written as functions on the word. -/

namespace Sys2Proof.Machine

/-- Bit `i` of a STATUS word. -/
def statusBit (i : Nat) (st : Word) : Bool := st.getLsbD i

/-- A STATUS word with bit `i` set to `b`. -/
def withStatusBit (i : Nat) (b : Bool) (st : Word) : Word :=
  if b then st ||| BitVec.twoPow 32 i else st &&& ~~~BitVec.twoPow 32 i

/-- `BUSY`, bit 0. -/
def busyFlag (st : Word) : Bool := statusBit 0 st

/-- `DONE`, bit 1. -/
def doneFlag (st : Word) : Bool := statusBit 1 st

/-- `ERR`, bit 2. -/
def errFlag (st : Word) : Bool := statusBit 2 st

/-- `WBUSY`, bit 3. -/
def wbusyFlag (st : Word) : Bool := statusBit 3 st

/-- `ECODE`, bits 10:8. -/
def ecodeField (st : Word) : Nat := bits st 10 8

def withBusy (b : Bool) (st : Word) : Word := withStatusBit 0 b st

def withDone (b : Bool) (st : Word) : Word := withStatusBit 1 b st

def withErr (b : Bool) (st : Word) : Word := withStatusBit 2 b st

def withWbusy (b : Bool) (st : Word) : Word := withStatusBit 3 b st

/-- A STATUS word with `ECODE` set to `code`. -/
def withEcode (code : Nat) (st : Word) : Word := (st &&& ~~~0x00000700#32) ||| zext32 (code % 8 * 256)

/-- The defined bits of STATUS; every other bit is reserved and reads as 0 (10_state R24, R29). -/
def statusMask : Word := 0x0000070F#32

/-- The numeric code of an error (60_exceptions R180). -/
def ErrorKind.code : ErrorKind → Nat
  | .shape => 1
  | .domain => 2
  | .unknownKernel => 3
  | .unknownOperation => 4
  | .indexDefect => 5

/-- START on STATUS: `BUSY <- 1`, `DONE`, `ERR`, `ECODE <- 0`, `WBUSY` kept (20_memory R53). -/
def startStatus (st : Word) : Word := withEcode 0 (withErr false (withDone false (withBusy true st)))

/-- COMPLETE with `Ok` on STATUS: `BUSY <- 0`, `DONE <- 1` (20_memory R66). -/
def okStatus (st : Word) : Word := withDone true (withBusy false st)

/-- COMPLETE with `Err` on STATUS: `BUSY <- 0`, `ERR <- 1`, `ECODE <- code` (60_exceptions R188). -/
def errStatus (e : ErrorKind) (st : Word) : Word := withEcode e.code (withErr true (withBusy false st))

/-- A lookup error as one of the five errors (30_encoding R86, 60_exceptions R183, R184). -/
def lookupError : DecodeError → ErrorKind
  | .unknownKernel => .unknownKernel
  | .unknownOperation => .unknownOperation

end Sys2Proof.Machine
end

