-- ==== Sys2Proof/Machine/Ops.lean ====
section
/-! DEFINITION. The shared operations over memories and registers: one word read or written, a run of words written,
the read of a register by number, START, and the engine's two ways to COMPLETE. -/

namespace Sys2Proof.Machine

/-- The word a memory lists at an address. -/
def Memory.find (a : Nat) : Memory → Option Word
  | [] => none
  | (b, w) :: rest => if a = b then some w else Memory.find a rest

/-- Store one word, keeping addresses strictly rising. -/
def Memory.write (a : Nat) (v : Word) : Memory → Memory
  | [] => [(a, v)]
  | (b, w) :: rest =>
    if a < b then (a, v) :: (b, w) :: rest
    else if a = b then (a, v) :: rest
    else (b, w) :: Memory.write a v rest

/-- Store a run of words from an address upward. -/
def Memory.writeRun (a : Nat) : List Word → Memory → Memory
  | [], m => m
  | v :: vs, m => Memory.writeRun (a + 1) vs (Memory.write a v m)

/-- The canonical form: addresses strictly rising. No listed word can equal what an unlisted address reads as, since
that is a free value (log 3). -/
def Memory.wf (m : Memory) : Bool := decide (m.Pairwise fun x y => x.1 < y.1)

/-- Every listed address lies below a capacity. -/
def Memory.within (cap : Nat) (m : Memory) : Bool := m.all fun c => decide (c.1 < cap)

/-- `MemRead(SRC, a)` (00_scope R15): the word last stored, or the unspecified word of the current reset. -/
def srcWord (s : State) (a : Nat) : Word := (s.src.find a).getD (Config.unspecifiedWord s.draws .src a)

/-- `MemRead(DST, a)` (00_scope R15). -/
def dstWord (s : State) (a : Nat) : Word := (s.dst.find a).getD (Config.unspecifiedWord s.draws .dst a)

/-- `MemWrite(SRC, a, v)` (00_scope R15). -/
def writeSrc (a : Nat) (v : Word) (s : State) : State := { s with src := s.src.write a v }

/-- `STATUS.BUSY = 1`: a command is held and not completed (10_state R22). -/
def isBusy (s : State) : Bool := busyFlag s.status

/-- The command held, taken by value at START (20_memory R71): what the engine decodes. -/
def heldCommand (s : State) : Word := s.cmd

/-- The defined bits of `DST_CFG`; bits 31:4 read as 0 (10_state R29, R32). -/
def dstCfgMask : Word := 0x0000000F#32

/-- The value of register `n` as the host reads it (20_memory R58); 0 for `n ≥ 8`. -/
def readRegister (n : Nat) (s : State) : Word :=
  match n with
  | 0 => s.cmd
  | 1 => s.status &&& statusMask
  | 2 => s.srcH
  | 3 => s.srcW
  | 4 => s.srcCfg
  | 5 => s.dstH
  | 6 => s.dstW
  | 7 => s.dstCfg &&& dstCfgMask
  | _ => 0

/-- START (20_memory R53): the command word is stored whatever its bits, and the engine becomes busy. -/
def start (v : Word) (s : State) : State := { s with cmd := v, status := startStatus s.status }

/-- Error entry (60_exceptions R188): the three STATUS fields and nothing else. -/
def completeErr (e : ErrorKind) (s : State) : State := { s with status := errStatus e s.status }

end Sys2Proof.Machine
end

