-- ==== Sys2Proof/Machine/Operands.lean ====
section
/-! DEFINITION. Buffer values (00_scope R14), the source buffer value of a state and its check (10_state R36,
20_memory R62), result shapes (20_memory R67), and the last three stages of `Exec` with COMPLETE
(60_exceptions R186, 20_memory R66). -/

namespace Sys2Proof.Machine

/-- The sample format (10_state R30). -/
inductive Format where
  | u8
  | ym
deriving DecidableEq, Repr

/-- The channel order (10_state R31). -/
inductive ChannelOrder where
  | rgb
  | bgr
deriving DecidableEq, Repr

/-- The code of a format in bit 2 of a configuration word (10_state R27, R30). -/
def Format.code : Format → Nat
  | .u8 => 0
  | .ym => 1

/-- `scale(fmt)`: raw units per unit of value (00_scope R14). -/
def Format.scale : Format → Nat
  | .u8 => 1
  | .ym => 1000

/-- The code of a channel order in bit 3 of a configuration word (10_state R27, R31). -/
def ChannelOrder.code : ChannelOrder → Nat
  | .rgb => 0
  | .bgr => 1

/-- The depth field of a configuration word, bits 1:0 (10_state R27). -/
def cfgDepth (cfg : Word) : Nat := bits cfg 1 0

/-- The format field of a configuration word, bit 2 (10_state R27, R30). -/
def cfgFormat (cfg : Word) : Format := if bits cfg 2 2 = 0 then .u8 else .ym

/-- The channel order field of a configuration word, bit 3 (10_state R27, R31). -/
def cfgOrder (cfg : Word) : ChannelOrder := if bits cfg 3 3 = 0 then .rgb else .bgr

/-- The reserved field of a configuration word, bits 31:4 (10_state R27). -/
def cfgReserved (cfg : Word) : Nat := bits cfg 31 4

/-- The configuration word of a buffer: `d + 4 · code(fmt) + 8 · code(chord)` (20_memory R66). -/
def cfgOf (d : Nat) (fmt : Format) (chord : ChannelOrder) : Word := zext32 (d + 4 * fmt.code + 8 * chord.code)

/-- A buffer value (00_scope R14): height, width, depth, format, channel order and the raw samples, row-major. -/
structure Buffer where
  h     : Nat
  w     : Nat
  d     : Nat
  fmt   : Format
  chord : ChannelOrder
  raw   : List Nat
deriving DecidableEq, Repr

/-- `size(B) = h · w · d` (00_scope R14). -/
def Buffer.size (B : Buffer) : Nat := B.h * B.w * B.d

/-- The index of a sample: `(y · w + x) · d + c` (00_scope R14, 20_memory R65). -/
def sampleIndex (w d y x c : Nat) : Nat := (y * w + x) * d + c

/-- `B[y, x, c]`, the raw sample of row `y`, column `x`, channel `c` (00_scope R14). -/
def Buffer.sample (B : Buffer) (y x c : Nat) : Nat := B.raw.getD (sampleIndex B.w B.d y x c) 0

/-- `val(B, y, x, c)`, the value of a sample (00_scope R14). -/
def Buffer.val (B : Buffer) (y x c : Nat) : ℚ := (B.sample y x c : ℚ) / (B.fmt.scale : ℚ)

/-- The buffer whose sample `[y, x, c]` is `f y x c`: the pseudocode's loops over rows, columns and channels. -/
def Buffer.tabulate (h w d : Nat) (fmt : Format) (chord : ChannelOrder) (f : Nat → Nat → Nat → Nat) : Buffer where
  h     := h
  w     := w
  d     := d
  fmt   := fmt
  chord := chord
  raw   := (List.range (h * w * d)).map fun k => f (k / (w * d)) (k / d % w) (k % d)

/-- A well-formed buffer value: legal depth and format, not empty, `size` raw samples, each within its format's range
(the tests of 20_memory R62 that a value can fail, and the result clause of R67). -/
def Buffer.wellFormed (B : Buffer) : Bool :=
  (B.d == 1 || B.d == 3)
  && decide (1 ≤ B.h) && decide (1 ≤ B.w)
  && !(B.fmt == .ym && B.d == 3)
  && B.raw.length == B.size
  && B.raw.all fun r => decide (r ≤ 255 * B.fmt.scale)

/-- The number of samples of the source buffer, `SRC_H · SRC_W · d`, in ℤ without wrap (20_memory R62). -/
def sourceSize (s : State) : Nat := s.srcH.toNat * s.srcW.toNat * cfgDepth s.srcCfg

/-- Tests (1) to (5) of 20_memory R62: they read registers only. -/
def descriptorOk (s : State) : Bool :=
  cfgReserved s.srcCfg == 0
  && (cfgDepth s.srcCfg == 1 || cfgDepth s.srcCfg == 3)
  && decide (1 ≤ s.srcH.toNat) && decide (1 ≤ s.srcW.toNat)
  && !(cfgFormat s.srcCfg == .ym && cfgDepth s.srcCfg == 3)
  && decide (sourceSize s ≤ s.config.params.srcCap)

/-- Test (6) of 20_memory R62: every raw sample inside the buffer is within its format's range. -/
def samplesOk (s : State) : Bool :=
  (List.range (sourceSize s)).all fun k => decide ((srcWord s k).toNat ≤ 255 * (cfgFormat s.srcCfg).scale)

/-- `WellFormed(state)` (20_memory R62), tested in the spec's order. -/
def sourceOk (s : State) : Bool := descriptorOk s && samplesOk s

/-- The source buffer value of a state (10_state R36). -/
def sourceBuffer (s : State) : Buffer where
  h     := s.srcH.toNat
  w     := s.srcW.toNat
  d     := cfgDepth s.srcCfg
  fmt   := cfgFormat s.srcCfg
  chord := cfgOrder s.srcCfg
  raw   := (List.range (sourceSize s)).map fun k => (srcWord s k).toNat

/-- The destination buffer value of a state (10_state R36). -/
def destBuffer (s : State) : Buffer where
  h     := s.dstH.toNat
  w     := s.dstW.toNat
  d     := cfgDepth s.dstCfg
  fmt   := cfgFormat s.dstCfg
  chord := cfgOrder s.dstCfg
  raw   := (List.range (s.dstH.toNat * s.dstW.toNat * cfgDepth s.dstCfg)).map fun k => (dstWord s k).toNat

/-- A result shape `(h', w', d')` (20_memory R67). -/
structure Shape where
  h : Nat
  w : Nat
  d : Nat
deriving DecidableEq, Repr

/-- The number of samples of a result. -/
def Shape.size (p : Shape) : Nat := p.h * p.w * p.d

/-- The shape of a buffer. -/
def Buffer.shape (B : Buffer) : Shape := ⟨B.h, B.w, B.d⟩

/-- `h`, `w`, 1: `grayscale`, `adjust` (20_memory R67). -/
def Shape.toGray (p : Shape) : Shape := ⟨p.h, p.w, 1⟩

/-- `3·h`, `3·w`, 1: `halftone` (20_memory R67). -/
def Shape.tripled (p : Shape) : Shape := ⟨3 * p.h, 3 * p.w, 1⟩

/-- `h`, `w`, `d`: the kernel operations, `rot180`, the flips, `negate` (20_memory R67). -/
def Shape.same (p : Shape) : Shape := p

/-- `w`, `h`, `d`: `rot90`, `rotm90` (20_memory R67). -/
def Shape.turned (p : Shape) : Shape := ⟨p.w, p.h, p.d⟩

/-- `ceil(h / 2)`, `ceil(w / 2)`, `d`: `downscale` (20_memory R67, 45 R166). -/
def Shape.halved (p : Shape) : Shape := ⟨(p.h + 1) / 2, (p.w + 1) / 2, p.d⟩

/-- Stages 2 to 4 of `Exec` (60_exceptions R186): the source check, the size check on the result shape, then the
operation's own function. -/
def evalOperation (resultShape : Shape → Shape) (f : Config → Buffer → Except ErrorKind Buffer) (s : State) :
    Except ErrorKind Buffer :=
  if !sourceOk s then .error .shape
  else if (resultShape (sourceBuffer s).shape).size > s.config.params.dstCap then .error .shape
  else f s.config (sourceBuffer s)

/-- COMPLETE with `Ok(B)` (20_memory R66): the destination descriptor, words `0 .. size(B) − 1` of `DST`, BUSY and
DONE. -/
def completeOk (B : Buffer) (s : State) : State :=
  { s with
    dstH   := zext32 B.h
    dstW   := zext32 B.w
    dstCfg := cfgOf B.d B.fmt B.chord
    dst    := s.dst.writeRun 0 (B.raw.map zext32)
    status := okStatus s.status }

/-- COMPLETE (20_memory R66) with the result of `Exec`. -/
def complete (result : Except ErrorKind Buffer) (s : State) : State :=
  match result with
  | .ok B => completeOk B s
  | .error e => completeErr e s

/-- The shared form of every operation's meaning: evaluate stages 2 to 4, then COMPLETE. -/
def runOperation (resultShape : Shape → Shape) (f : Config → Buffer → Except ErrorKind Buffer) (s : State) :
    Host.Outcome State Fault Refusal :=
  .next (complete (evalOperation resultShape f s) s)

end Sys2Proof.Machine
end

