-- ==== Sys2Proof/Machine/Convolution.lean ====
section
/-! DEFINITION. The convolution engine (44_convolution): one function with eleven table indices. -/

namespace Sys2Proof.Machine

/-- An index wrapped toroidally into `0 .. n − 1` (44 R135, 00_scope R8). -/
def wrap (a : Int) (n : Nat) : Nat := (modulo a n).toNat

/-- The sample that kernel cell `(i, j)` meets at a position (44 R135): row `y − center + j`, column
`x − center + i`, both wrapped. -/
def windowSample (K : Kernel) (S : Buffer) (y x ch i j : Nat) : Nat :=
  S.sample (wrap ((y : Int) - (K.center : Int) + (j : Int)) S.h)
    (wrap ((x : Int) - (K.center : Int) + (i : Int)) S.w) ch

/-- One term of the weighted sum (44 R135). -/
def windowTerm (K : Kernel) (S : Buffer) (y x ch i j : Nat) : Int :=
  (windowSample K S y x ch i j : Int) * K.weight i j

/-- The exact weighted sum `acc` at a position (44 R135), over all kernel cells. -/
def accumulate (K : Kernel) (S : Buffer) (y x ch : Nat) : Int :=
  ((List.range K.dim).map fun i => ((List.range K.dim).map fun j => windowTerm K S y x ch i j).sum).sum

/-- The integer made of the weighted sum `acc / (s · div)` (44 R135): a grayscale buffer rounds, a colour buffer
truncates. -/
def narrow (tie : Tie) (d : Nat) (acc : Int) (denominator : Nat) : Int :=
  if d = 1 then rnd tie acc denominator else trunc acc denominator

/-- `Conv(S, k)` (44 R135) for the kernel `K`. -/
def convolve (tie : Tie) (K : Kernel) (S : Buffer) : Buffer :=
  Buffer.tabulate S.h S.w S.d .u8 S.chord fun y x ch =>
    clip (narrow tie S.d (accumulate K S y x ch) (S.fmt.scale * K.div))

/-- A kernel operation (44 section 3): `Conv(S, k)`, shape preserved. -/
def runKernel (k : Fin 11) (s : State) : Host.Outcome State Fault Refusal :=
  runOperation Shape.same (fun c S => .ok (convolve c.params.tie (c.kernel k) S)) s

/-- `mean` (44 R140). -/
def execMean (s : State) : Host.Outcome State Fault Refusal := runKernel 0 s

/-- `gaussian` (44 R141). -/
def execGaussian (s : State) : Host.Outcome State Fault Refusal := runKernel 1 s

/-- `sharpen` (44 R142). -/
def execSharpen (s : State) : Host.Outcome State Fault Refusal := runKernel 2 s

/-- `laplacian` (44 R143). -/
def execLaplacian (s : State) : Host.Outcome State Fault Refusal := runKernel 3 s

/-- `emboss` (44 R144). -/
def execEmboss (s : State) : Host.Outcome State Fault Refusal := runKernel 4 s

/-- `motion` (44 R145). -/
def execMotion (s : State) : Host.Outcome State Fault Refusal := runKernel 5 s

/-- `x_edge` (44 R146). -/
def execXEdge (s : State) : Host.Outcome State Fault Refusal := runKernel 6 s

/-- `y_edge` (44 R147). -/
def execYEdge (s : State) : Host.Outcome State Fault Refusal := runKernel 7 s

/-- `brighten` (44 R148). -/
def execBrighten (s : State) : Host.Outcome State Fault Refusal := runKernel 8 s

/-- `darken` (44 R149). -/
def execDarken (s : State) : Host.Outcome State Fault Refusal := runKernel 9 s

/-- `identity` (44 R150). -/
def execIdentity (s : State) : Host.Outcome State Fault Refusal := runKernel 10 s

end Sys2Proof.Machine
end

