-- ==== Sys2Proof/Machine/Geometric.lean ====
section
/-! DEFINITION. The geometric transform set (45_geometric). Every result keeps depth, format and channel order
(R160). -/

namespace Sys2Proof.Machine

/-- A buffer of shape `h × w` with the depth, format and channel order of `S` (45 R160). -/
def remap (S : Buffer) (h w : Nat) (f : Nat → Nat → Nat → Nat) : Buffer :=
  Buffer.tabulate h w S.d S.fmt S.chord f

/-- `Rot90(S)` (45 R161): a quarter turn clockwise. -/
def rot90 (S : Buffer) : Buffer := remap S S.w S.h fun y x ch => S.sample (S.h - 1 - x) y ch

/-- `Rotm90(S)` (45 R162): a quarter turn counter-clockwise. -/
def rotm90 (S : Buffer) : Buffer := remap S S.w S.h fun y x ch => S.sample x (S.w - 1 - y) ch

/-- `Rot180(S)` (45 R163): rows and columns reversed, the channels of a pixel in place. -/
def rot180 (S : Buffer) : Buffer := remap S S.h S.w fun y x ch => S.sample (S.h - 1 - y) (S.w - 1 - x) ch

/-- `HorFlip(S)` (45 R164, R169): the column order reversed. -/
def horFlip (S : Buffer) : Buffer := remap S S.h S.w fun y x ch => S.sample y (S.w - 1 - x) ch

/-- `VertFlip(S)` (45 R165, R169): the row order reversed. -/
def vertFlip (S : Buffer) : Buffer := remap S S.h S.w fun y x ch => S.sample (S.h - 1 - y) x ch

/-- `Downscale(S)` (45 R166): the even rows and columns; an odd size keeps its last. -/
def downscale (S : Buffer) : Buffer :=
  remap S ((S.h + 1) / 2) ((S.w + 1) / 2) fun y x ch => S.sample (2 * y) (2 * x) ch

/-- `Negate(S)` (45 R167): `255 · scale − raw`; not negative, because a well-formed raw is within its range. -/
def negate (S : Buffer) : Buffer := remap S S.h S.w fun y x ch => 255 * S.fmt.scale - S.sample y x ch

/-- `rot90` (45 R161). -/
def execRot90 (s : State) : Host.Outcome State Fault Refusal :=
  runOperation Shape.turned (fun _ S => .ok (rot90 S)) s

/-- `rotm90` (45 R162). -/
def execRotm90 (s : State) : Host.Outcome State Fault Refusal :=
  runOperation Shape.turned (fun _ S => .ok (rotm90 S)) s

/-- `rot180` (45 R163). -/
def execRot180 (s : State) : Host.Outcome State Fault Refusal :=
  runOperation Shape.same (fun _ S => .ok (rot180 S)) s

/-- `hor_flip` (45 R164). -/
def execHorFlip (s : State) : Host.Outcome State Fault Refusal :=
  runOperation Shape.same (fun _ S => .ok (horFlip S)) s

/-- `vert_flip` (45 R165). -/
def execVertFlip (s : State) : Host.Outcome State Fault Refusal :=
  runOperation Shape.same (fun _ S => .ok (vertFlip S)) s

/-- `downscale` (45 R166). -/
def execDownscale (s : State) : Host.Outcome State Fault Refusal :=
  runOperation Shape.halved (fun _ S => .ok (downscale S)) s

/-- `negate` (45 R167). -/
def execNegate (s : State) : Host.Outcome State Fault Refusal :=
  runOperation Shape.same (fun _ S => .ok (negate S)) s

end Sys2Proof.Machine
end

