-- ==== Sys2Proof/Machine/Grayscale.lean ====
section
/-! DEFINITION. The grayscale converter (41_grayscale). -/

namespace Sys2Proof.Machine

/-- The channel index of red under a channel order (10_state R31). -/
def redChannel : ChannelOrder → Nat
  | .rgb => 0
  | .bgr => 2

/-- The channel index of green: 1 under both orders (10_state R31). -/
def greenChannel : ChannelOrder → Nat
  | .rgb => 1
  | .bgr => 1

/-- The channel index of blue (10_state R31). -/
def blueChannel : ChannelOrder → Nat
  | .rgb => 2
  | .bgr => 0

/-- The luminance of a pixel in thousandths, exact (41 R100, R101). -/
def luminance (r g b : Nat) : Nat := 299 * r + 587 * g + 114 * b

/-- `Gray(S)` (41 R101): a depth-1 buffer is returned unchanged, a colour buffer becomes its luminance in `YM`. -/
def gray (S : Buffer) : Buffer :=
  if S.d = 1 then S
  else Buffer.tabulate S.h S.w 1 .ym .rgb fun y x _ =>
    luminance (S.sample y x (redChannel S.chord)) (S.sample y x (greenChannel S.chord))
      (S.sample y x (blueChannel S.chord))

/-- `grayscale` (41 R101). -/
def execGrayscale (s : State) : Host.Outcome State Fault Refusal :=
  runOperation Shape.toGray (fun _ S => .ok (gray S)) s

end Sys2Proof.Machine
end

