-- ==== Sys2Proof/Machine/RangeAdjust.lean ====
section
/-! DEFINITION. The range adjuster (42_range_adjust). -/

namespace Sys2Proof.Machine

/-- The least raw sample of a non-empty buffer (42 R111). -/
def rawMin (B : Buffer) : Nat := B.raw.foldl min (B.raw.headD 0)

/-- The greatest raw sample of a non-empty buffer (42 R111). -/
def rawMax (B : Buffer) : Nat := B.raw.foldl max (B.raw.headD 0)

/-- The numerator `N` of an adjusted sample (42 R112), in ℤ because `new_max − new_min` may be negative. -/
def adjustNumerator (v rmin rmax newMin newMax : Nat) : Int :=
  ((v : Int) - rmin) * ((newMax : Int) - newMin) + (newMin : Int) * ((rmax : Int) - rmin)

/-- One adjusted sample, `rnd(N / D)` with `D = rmax − rmin` (42 R112). -/
def adjustSample (tie : Tie) (rmin rmax newMin newMax v : Nat) : Nat :=
  (rnd tie (adjustNumerator v rmin rmax newMin newMax) (rmax - rmin)).toNat

/-- `Adjust(S, new_min, new_max)` (42 R112), with the failure checks of R111 in their order: "not grayscale", then
"constant". -/
def adjust (tie : Tie) (S : Buffer) (newMin newMax : Nat) : Except ErrorKind Buffer :=
  if S.d ≠ 1 then .error .domain
  else if rawMin S = rawMax S then .error .domain
  else .ok (Buffer.tabulate S.h S.w 1 .u8 S.chord fun y x _ =>
    adjustSample tie (rawMin S) (rawMax S) newMin newMax (S.sample y x 0))

/-- `adjust new_min, new_max` (42 R112). -/
def execAdjust (newMin newMax : Nat) (s : State) : Host.Outcome State Fault Refusal :=
  runOperation Shape.toGray (fun c S => adjust c.params.tie S newMin newMax) s

end Sys2Proof.Machine
end

