-- ==== Sys2Proof/Machine/Halftone.lean ====
section
/-! DEFINITION. The halftone encoder (43_halftone). -/

namespace Sys2Proof.Machine

/-- A row or column of the enlarged image as a row or column within its tile, `0 .. 2`. -/
def tileCoordinate (n : Nat) : Fin 3 := Fin.ofNat 3 n

/-- The tiles of an adjusted buffer (43 R124, the loops): the 3×3 block of pixel `(r, c)` is 255 times the mask of
its index. -/
def tiles (c : Config) (A : Buffer) : Buffer :=
  Buffer.tabulate (3 * A.h) (3 * A.w) 1 .u8 A.chord fun y x _ =>
    255 * c.mask (A.sample (y / 3) (x / 3) 0) (tileCoordinate y) (tileCoordinate x)

/-- The fail-fast test of 43 R125: an index above 9 is an error, never used to look up the table. -/
def encodeTiles (c : Config) (A : Buffer) : Except ErrorKind Buffer :=
  if A.raw.any (fun idx => decide (idx > 9)) then .error .indexDefect else .ok (tiles c A)

/-- `Halftone(S)` (43 R123, R124): grayscale, adjust to `[0, 9]`, tiles; an error of an inner stage is the error of
the whole. -/
def halftone (c : Config) (S : Buffer) : Except ErrorKind Buffer :=
  match adjust c.params.tie (gray S) 0 9 with
  | .error e => .error e
  | .ok A => encodeTiles c A

/-- `halftone` (43 R124). -/
def execHalftone (s : State) : Host.Outcome State Fault Refusal :=
  runOperation Shape.tripled halftone s

end Sys2Proof.Machine
end

