-- ==== Sys2Proof/Machine/Dispatch.lean ====
section
/-! DEFINITION. The dispatch: one arm per operation of 30_encoding R82. -/

namespace Sys2Proof.Machine

/-- COMPLETE of a decoded operation (60_exceptions R186 stages 2 to 4, 20_memory R66). -/
def exec (i : Instr) (s : State) : Host.Outcome State Fault Refusal :=
  match i with
  | .grayscale => Sys2Proof.Machine.execGrayscale s
  | .adjust newMin newMax => Sys2Proof.Machine.execAdjust newMin newMax s
  | .halftone => Sys2Proof.Machine.execHalftone s
  | .mean => Sys2Proof.Machine.execMean s
  | .gaussian => Sys2Proof.Machine.execGaussian s
  | .sharpen => Sys2Proof.Machine.execSharpen s
  | .laplacian => Sys2Proof.Machine.execLaplacian s
  | .emboss => Sys2Proof.Machine.execEmboss s
  | .motion => Sys2Proof.Machine.execMotion s
  | .xEdge => Sys2Proof.Machine.execXEdge s
  | .yEdge => Sys2Proof.Machine.execYEdge s
  | .brighten => Sys2Proof.Machine.execBrighten s
  | .darken => Sys2Proof.Machine.execDarken s
  | .identity => Sys2Proof.Machine.execIdentity s
  | .rot90 => Sys2Proof.Machine.execRot90 s
  | .rotm90 => Sys2Proof.Machine.execRotm90 s
  | .rot180 => Sys2Proof.Machine.execRot180 s
  | .horFlip => Sys2Proof.Machine.execHorFlip s
  | .vertFlip => Sys2Proof.Machine.execVertFlip s
  | .downscale => Sys2Proof.Machine.execDownscale s
  | .negate => Sys2Proof.Machine.execNegate s

end Sys2Proof.Machine
end

