-- ==== Sys2Proof/Machine/Engine.lean ====
section
/-! DEFINITION. The engine step COMPLETE (20_memory R66): decode the held command, then run it or report the lookup
error. -/

namespace Sys2Proof.Machine

/-- COMPLETE (20_memory R66, 60_exceptions R186): stage 1 decodes; a lookup error ends the command before the source
is examined. -/
def runHeldCommand (s : State) : Host.Outcome State Fault Refusal :=
  match decode (heldCommand s) with
  | .error e => .next (completeErr (lookupError e) s)
  | .ok i => exec i s

/-- The engine's turn: COMPLETE when a command is held, which is exactly when it is enabled (20_memory R66); an idle
CORE keeps all its state (60_exceptions R206; log 5). -/
def engineTurn (s : State) : Host.Outcome State Fault Refusal :=
  if isBusy s then runHeldCommand s else .next s

end Sys2Proof.Machine
end

