-- ==== Sys2Proof/Machine/Port.lean ====
section
/-! DEFINITION. The host port (20_memory section 1, 70_reset section 1): what each host transaction does to the state
and what it returns. -/

namespace Sys2Proof.Machine

/-- A write that arrives while busy (20_memory R52): dropped, `WBUSY <- 1`. -/
def dropBusyWrite (s : State) : State := { s with status := withWbusy true s.status }

/-- A host write to `STATUS` while idle (10_state R24, 20_memory R56): bit 3 of the written word clears `WBUSY`;
nothing else changes. -/
def writeStatus (v : Word) (s : State) : State :=
  if v.getLsbD 3 then { s with status := withWbusy false s.status } else s

/-- `RegWrite(n, v)` while idle, by register number (20_memory R53, R56). -/
def regWriteIdle (n : Nat) (v : Word) (s : State) : State :=
  match n with
  | 0 => start v s
  | 1 => writeStatus v s
  | 2 => { s with srcH := v }
  | 3 => { s with srcW := v }
  | 4 => { s with srcCfg := v }
  | _ => s

/-- `RegWrite(n, v)` (20_memory R52, R56). -/
def regWrite (n : Nat) (v : Word) (s : State) : State :=
  if isBusy s then dropBusyWrite s else regWriteIdle n v s

/-- `SrcWrite(a, v)` (20_memory R52, R54): dropped at or above `SRC_CAP`. -/
def srcWrite (a : Nat) (v : Word) (s : State) : State :=
  if isBusy s then dropBusyWrite s
  else if a < s.config.params.srcCap then writeSrc a v s else s

/-- `DstWrite(a, v)` (20_memory R57): always dropped; while busy by R52, which sets `WBUSY`. -/
def dstWrite (s : State) : State := if isBusy s then dropBusyWrite s else s

/-- `SrcRead(a)` (20_memory R55). -/
def srcRead (a : Nat) (s : State) : Word := if a < s.config.params.srcCap then srcWord s a else 0

/-- `DstRead(a)` (20_memory R57). -/
def dstRead (a : Nat) (s : State) : Word := if a < s.config.params.dstCap then dstWord s a else 0

/-- `Reset` (70 R210, R211): eight registers zero, both memories unspecified anew, a held command abandoned. -/
def resetCore (s : State) : State :=
  { s with
    cmd := 0, status := 0, srcH := 0, srcW := 0, srcCfg := 0, dstH := 0, dstW := 0, dstCfg := 0
    src := [], dst := [], draws := s.draws + 1 }

/-- What a transaction does to the CORE; a read changes nothing (20_memory R55, R57, R58, R63). -/
def transactionEffect (t : Transaction) (s : State) : State :=
  match t with
  | .regWrite n v => regWrite n v s
  | .srcWrite a v => srcWrite a v s
  | .dstWrite _ _ => dstWrite s
  | .reset => resetCore s
  | .regRead _ => s
  | .srcRead _ => s
  | .dstRead _ => s

/-- What a transaction returns (20_memory R51): a read the word it reads, every other transaction nothing. -/
def transactionReturns (t : Transaction) (s : State) : Option Word :=
  match t with
  | .regRead n => some (readRegister n s)
  | .srcRead a => some (srcRead a s)
  | .dstRead a => some (dstRead a s)
  | .regWrite _ _ => none
  | .srcWrite _ _ => none
  | .dstWrite _ _ => none
  | .reset => none

/-- One host transaction, atomic (20_memory R51): its effect, and what it returns left in `response`. -/
def perform (t : Transaction) (s : State) : State :=
  { transactionEffect t s with response := transactionReturns t s }

end Sys2Proof.Machine
end

