-- ==== Sys2Proof/Machine/Step.lean ====
section
/-! DEFINITION. One step: the next event of the total order (20_memory R68, R69). -/

namespace Sys2Proof.Machine

/-- The next event takes effect wholly (00_scope R6). It is the first of the schedule; when the host has nothing more
to do the engine has its turn (weak fairness, 20_memory R68; log 4). -/
def step (s : State) : Host.Outcome State Fault Refusal :=
  match s.schedule with
  | [] => engineTurn s
  | .engine :: rest => engineTurn { s with schedule := rest }
  | .host t :: rest => .next (perform t { s with schedule := rest })

/-- `s` with the command whose bits are `w` (all bits above `nbits` zero) started (20_memory R53) and the engine next
in the schedule, so that the next step is COMPLETE of exactly that command. There is no instruction memory to store it
in (10_state R22; log 7). -/
def State.withFetchWord (s : State) (nbits w : Nat) : State :=
  { start (zext32 (w % 2 ^ nbits)) s with schedule := .engine :: s.schedule }

end Sys2Proof.Machine
end

