-- ==== Sys2Proof/Machine/Assembler.lean ====
section
/-! DEFINITION. The assembler syntax of a command (30_encoding R89): a mnemonic, and for `adjust` two unsigned
integers separated by a comma. -/

namespace Sys2Proof.Machine

/-- Why a line is no command (30_encoding R89). -/
inductive AssemblyError where
  /-- The mnemonic is none of 30_encoding R82. -/
  | unknownMnemonic
  /-- An operand is not an unsigned decimal or `0x` hexadecimal integer. -/
  | badNumber
  /-- Formats N and K take no operand, format A takes two. -/
  | operandCount
  /-- An operand lies outside `0 .. 255`. -/
  | operandRange
deriving DecidableEq, Repr

/-- The value of a digit, at most 15 (upper or lower case; log 15). -/
def digitValue (c : Char) : Option Nat :=
  let n := c.toNat
  if 48 ≤ n ∧ n ≤ 57 then some (n - 48)
  else if 97 ≤ n ∧ n ≤ 102 then some (n - 87)
  else if 65 ≤ n ∧ n ≤ 70 then some (n - 55)
  else none

/-- The value of a run of digits in a base, after the digits read so far. -/
def digitsValue (base acc : Nat) : List Char → Option Nat
  | [] => some acc
  | c :: cs =>
    match digitValue c with
    | none => none
    | some v => if v < base then digitsValue base (base * acc + v) cs else none

/-- An unsigned decimal or `0x` hexadecimal integer (30_encoding R89). -/
def numberValue (cs : List Char) : Option Nat :=
  match cs with
  | [] => none
  | ['0', 'x'] => none
  | '0' :: 'x' :: rest => digitsValue 16 0 rest
  | _ => digitsValue 10 0 cs

/-- A line without the blanks at its ends. -/
def trimBlanks (cs : List Char) : List Char :=
  (((cs.dropWhile (· == ' ')).reverse).dropWhile (· == ' ')).reverse

/-- The operands of a line: the text after the mnemonic, cut at its commas. -/
def operandTexts (cs : List Char) : List (List Char) :=
  if trimBlanks cs = [] then [] else (cs.splitOn ',').map trimBlanks

/-- The twenty operations without operands (30_encoding R82). -/
def plainInstrs : List Instr :=
  [.grayscale, .halftone, .mean, .gaussian, .sharpen, .laplacian, .emboss, .motion, .xEdge, .yEdge, .brighten,
   .darken, .identity, .rot90, .rotm90, .rot180, .horFlip, .vertFlip, .downscale, .negate]

/-- The command of a mnemonic and its operands (30_encoding R89). -/
def assembleTokens (mnemonic : List Char) (operands : List (List Char)) : Except AssemblyError Instr :=
  if mnemonic = (Instr.adjust 0 0).mnemonic.toList then
    match operands with
    | [a, b] =>
      match numberValue a, numberValue b with
      | some newMin, some newMax =>
        if (Instr.adjust newMin newMax).wellFormed then .ok (.adjust newMin newMax) else .error .operandRange
      | _, _ => .error .badNumber
    | _ => .error .operandCount
  else
    match plainInstrs.find? fun i => mnemonic == i.mnemonic.toList with
    | none => .error .unknownMnemonic
    | some i => if operands = [] then .ok i else .error .operandCount

/-- The command of one line (30_encoding R89): the mnemonic runs to the first blank. -/
def assembleLine (line : List Char) : Except AssemblyError Instr :=
  let text := trimBlanks line
  assembleTokens (text.takeWhile (· != ' ')) (operandTexts (text.dropWhile (· != ' ')))

end Sys2Proof.Machine
end

