-- ==== Sys2Proof/Machine/Script.lean ====
section
/-! DEFINITION. The host-script lines of 30_encoding R90: each is a shorthand for host transactions. -/

namespace Sys2Proof.Machine

/-- One line of a host script (30_encoding R90), and a transaction written out, as the programs of 95 also do. -/
inductive ScriptLine where
  | reset
  | setsrc (h w : Word) (d : Nat) (fmt : Format) (chord : ChannelOrder)
  | load (samples : List Word)
  | command (i : Instr)
  | wait
  | copyback
  | expectRegister (n : Nat) (v : Word)
  | expectDst (a : Nat) (vs : List Word)
  | transaction (t : Transaction)
deriving DecidableEq, Repr

/-- `SrcWrite(a, v0); SrcWrite(a + 1, v1); …` -/
def loadEvents (a : Nat) : List Word → List Event
  | [] => []
  | v :: vs => .host (.srcWrite a v) :: loadEvents (a + 1) vs

/-- `SrcWrite(k, DstRead(k))` for `k` in `0 .. n − 1`. -/
def copyEvents (n : Nat) (s : State) : List Event :=
  (List.range n).flatMap fun k => [.host (.dstRead k), .host (.srcWrite k (dstRead k s))]

/-- The events a line expands to (30_encoding R90), issued from a state. `wait` polls `STATUS` until BUSY is 0, with the
engine's turn between two polls (log 14); `copyback` writes what its reads return. -/
def ScriptLine.events (l : ScriptLine) (s : State) : List Event :=
  match l with
  | .reset => [.host .reset]
  | .setsrc h w d fmt chord =>
    [.host (.regWrite 2 h), .host (.regWrite 3 w), .host (.regWrite 4 (cfgOf d fmt chord))]
  | .load samples => loadEvents 0 samples
  | .command i => [.host (.regWrite 0 (encode i))]
  | .wait =>
    if isBusy s then [.host (.regRead 1), .engine, .host (.regRead 1)] else [.host (.regRead 1)]
  | .copyback =>
    let h := readRegister 5 s
    let w := readRegister 6 s
    let c := readRegister 7 s
    [.host (.regRead 5), .host (.regRead 6), .host (.regRead 7),
     .host (.regWrite 2 h), .host (.regWrite 3 w), .host (.regWrite 4 c)]
      ++ copyEvents (h.toNat * w.toNat * cfgDepth c) s
  | .expectRegister n _ => [.host (.regRead n)]
  | .expectDst a vs => (List.range vs.length).map fun k => .host (.dstRead (a + k))
  | .transaction t => [.host t]

/-- Whether an `expect` line holds in a state; every other line asserts nothing. -/
def ScriptLine.holds (l : ScriptLine) (s : State) : Bool :=
  match l with
  | .expectRegister n v => readRegister n s == v
  | .expectDst a vs => (List.range vs.length).map (fun k => dstRead (a + k) s) == vs
  | .reset | .setsrc _ _ _ _ _ | .load _ | .command _ | .wait | .copyback | .transaction _ => true

/-- Run a script from a state with nothing else scheduled: each line's events are scheduled and stepped through; `none`
when an `expect` does not hold. -/
def runScript : List ScriptLine → State → Option State
  | [], s => some s
  | l :: ls, s =>
    if l.holds s then
      match Host.Core.run Sys2Proof.core (l.events s).length { s with schedule := l.events s } with
      | .next t => runScript ls t
      | .fault _ => none
      | .refused _ => none
    else none

end Sys2Proof.Machine
end

