-- ==== Sys2Proof/Safety.lean ====
section
/-! DEFINITION. What holds of every state the CORE reaches, and what a safe run is. -/

namespace Sys2Proof

open Machine

/-- `STATUS` as 10_state R24 and R25 say: reserved bits 0; at most one of BUSY, DONE, ERR; ECODE non-zero exactly
when ERR; and never the unused codes 6 and 7 (60_exceptions R180) nor the unreachable 5 (R185). -/
def StatusLegal (st : Word) : Prop :=
  st &&& ~~~statusMask = 0
  ∧ ¬(busyFlag st = true ∧ doneFlag st = true)
  ∧ ¬(busyFlag st = true ∧ errFlag st = true)
  ∧ ¬(doneFlag st = true ∧ errFlag st = true)
  ∧ (ecodeField st ≠ 0 ↔ errFlag st = true)
  ∧ ecodeField st ≤ 4

/-- BUSY, DONE and ERR are all 0 only before the first START since reset (10_state R25): then no command word has
been accepted and the destination is empty (R32, R33). -/
def FreshLegal (s : State) : Prop :=
  busyFlag s.status = false → doneFlag s.status = false → errFlag s.status = false →
    s.cmd = 0 ∧ s.dstH = 0 ∧ s.dstW = 0 ∧ s.dstCfg = 0

/-- Both memories in canonical form and inside their capacities (10_state R34, R35). -/
def MemoriesLegal (s : State) : Prop :=
  s.src.wf = true ∧ s.dst.wf = true
  ∧ s.src.within s.config.params.srcCap = true ∧ s.dst.within s.config.params.dstCap = true

/-- The destination descriptor reads all 0, an empty buffer (10_state R32, R33). -/
def DestinationEmpty (s : State) : Prop := s.dstH = 0 ∧ s.dstW = 0 ∧ s.dstCfg = 0

/-- The destination descriptor and memory hold a well-formed buffer that fits (10_state R32, 20_memory R67). -/
def DestinationHolds (s : State) : Prop :=
  cfgReserved s.dstCfg = 0 ∧ (destBuffer s).wellFormed = true ∧ (destBuffer s).size ≤ s.config.params.dstCap

/-- Before the first successful command the destination is empty, after it the destination holds a well-formed
result, and DONE says a result is there (10_state R24, R32). -/
def DestinationLegal (s : State) : Prop :=
  (DestinationEmpty s ∨ DestinationHolds s) ∧ (doneFlag s.status = true → DestinationHolds s)

/-- The invariant of the CORE. -/
def Inv (s : State) : Prop := StatusLegal s.status ∧ FreshLegal s ∧ MemoriesLegal s ∧ DestinationLegal s

/-- The destination capacity is small enough for a 32-bit register to hold the height and width of every result that
fits (log 11). -/
def RegistersHoldShapes (s : State) : Prop := s.config.params.dstCap < 2 ^ 32

/-- A safe run: the machine goes on at every step, through states that meet the invariant. -/
def SafeRun (s : State) : Prop := ∀ k, ∃ t, Host.Core.run core k s = .next t ∧ Inv t

end Sys2Proof
end

