-- ==== Sys2Proof/Certificates/Slice0/Obligations.lean ====
section
/-! DEFINITION. The statements for the provers, in the order of the spec's files, and the few words they are written
in. -/

namespace Sys2Proof.Claims

open Machine

/-- The raw source sample of row `y`, column `x`, channel `c`, read from `SRC` (20_memory R65). -/
def srcAt (s : State) (y x c : Nat) : Nat :=
  (srcWord s ((y * s.srcW.toNat + x) * cfgDepth s.srcCfg + c)).toNat

/-- The raw result sample of row `y`, column `x`, channel `c` of a result of width `w` and depth `d`, read from `DST`
(20_memory R65). -/
def dstAt (t : State) (w d y x c : Nat) : Nat := (dstWord t ((y * w + x) * d + c)).toNat

/-- The channel index of red in the source: 0 under `RGB`, 2 under `BGR` (10_state R31). -/
def redIndex (s : State) : Nat := if s.srcCfg.getLsbD 3 then 2 else 0

/-- The channel index of blue in the source: 2 under `RGB`, 0 under `BGR` (10_state R31). -/
def blueIndex (s : State) : Nat := if s.srcCfg.getLsbD 3 then 0 else 2

/-- The luminance raw of a pixel as `Gray` gives it (41 R101): the sample itself in a grayscale source, else
`299·R + 587·G + 114·B`. -/
def lumAt (s : State) (y x : Nat) : Nat :=
  if cfgDepth s.srcCfg = 1 then srcAt s y x 0
  else 299 * srcAt s y x (redIndex s) + 587 * srcAt s y x 1 + 114 * srcAt s y x (blueIndex s)

/-- The number of samples of an operation's result (the table of 20_memory R67). -/
def resultSize (i : Instr) (h w d : Nat) : Nat :=
  match i with
  | .grayscale | .adjust _ _ => h * w * 1
  | .halftone => 3 * h * (3 * w) * 1
  | .rot90 | .rotm90 => w * h * d
  | .downscale => (h + 1) / 2 * ((w + 1) / 2) * d
  | .mean | .gaussian | .sharpen | .laplacian | .emboss | .motion | .xEdge | .yEdge | .brighten | .darken
  | .identity | .rot180 | .horFlip | .vertFlip | .negate => h * w * d

/-- The number of samples of the result an operation has in a state. -/
def resultSizeIn (i : Instr) (s : State) : Nat :=
  resultSize i s.srcH.toNat s.srcW.toNat (cfgDepth s.srcCfg)

/-- The kernel table index of a kernel operation (44 R130). -/
def kernelIndex (i : Instr) : Option (Fin 11) :=
  match i with
  | .mean => some 0
  | .gaussian => some 1
  | .sharpen => some 2
  | .laplacian => some 3
  | .emboss => some 4
  | .motion => some 5
  | .xEdge => some 6
  | .yEdge => some 7
  | .brighten => some 8
  | .darken => some 9
  | .identity => some 10
  | .grayscale | .adjust _ _ | .halftone | .rot90 | .rotm90 | .rot180 | .horFlip | .vertFlip | .downscale
  | .negate => none

/-- Everything COMPLETE leaves alone (20_memory R66): the command, the source descriptor and memory, `WBUSY` and the
reserved bits of STATUS, the parameters, and the model's own fields. -/
structure SameBesidesResult (s t : State) : Prop where
  cmd      : t.cmd = s.cmd
  srcH     : t.srcH = s.srcH
  srcW     : t.srcW = s.srcW
  srcCfg   : t.srcCfg = s.srcCfg
  src      : t.src = s.src
  config   : t.config = s.config
  draws    : t.draws = s.draws
  schedule : t.schedule = s.schedule
  response : t.response = s.response
  wbusy    : t.status.getLsbD 3 = s.status.getLsbD 3
  reserved : ∀ j, (4 ≤ j ∧ j ≤ 7 ∨ 11 ≤ j) → t.status.getLsbD j = s.status.getLsbD j

/-- COMPLETE with an `Ok` result of the given descriptor, its samples apart (20_memory R66): the destination descriptor
registers, BUSY and DONE, the error fields kept, every word of `DST` at or above the size kept, all else kept. -/
structure Completed (s t : State) (h w d : Nat) (fmt : Format) (chord : ChannelOrder) : Prop where
  dstH   : t.dstH = BitVec.ofNat 32 h
  dstW   : t.dstW = BitVec.ofNat 32 w
  dstCfg : t.dstCfg = BitVec.ofNat 32 (d + 4 * fmt.code + 8 * chord.code)
  busy   : t.status.getLsbD 0 = false
  done   : t.status.getLsbD 1 = true
  err    : t.status.getLsbD 2 = s.status.getLsbD 2
  ecode  : ecodeField t.status = ecodeField s.status
  rest   : ∀ a, h * w * d ≤ a → dstWord t a = dstWord s a
  same   : SameBesidesResult s t

/-- COMPLETE with an error of a code (60_exceptions R188): BUSY 0, ERR 1, ECODE, and nothing else. -/
structure Failed (s t : State) (code : Nat) : Prop where
  busy   : t.status.getLsbD 0 = false
  done   : t.status.getLsbD 1 = s.status.getLsbD 1
  err    : t.status.getLsbD 2 = true
  ecode  : ecodeField t.status = code
  dstH   : t.dstH = s.dstH
  dstW   : t.dstW = s.dstW
  dstCfg : t.dstCfg = s.dstCfg
  dst    : t.dst = s.dst
  same   : SameBesidesResult s t

/-- The weighted sum of values of 44 R135 as a rational: over all kernel cells, the value of the sample at row
`(y − center + j) mod h` and column `(x − center + i) mod w`, times the weight `K[i][j] / div`. -/
def weightedSum (K : Kernel) (s : State) (y x ch : Nat) : ℚ :=
  ∑ i ∈ Finset.range K.dim, ∑ j ∈ Finset.range K.dim,
    ((srcAt s (((y : Int) - (K.center : Int) + (j : Int)) % (s.srcH.toNat : Int)).toNat
        (((x : Int) - (K.center : Int) + (i : Int)) % (s.srcW.toNat : Int)).toNat ch : Nat) : ℚ)
      / ((cfgFormat s.srcCfg).scale : ℚ) * ((K.weight i j : ℚ) / (K.div : ℚ))

/-- The integer made of a weighted sum (44 R135): grayscale rounds, colour truncates, both clip. -/
def narrowed (s : State) (q : ℚ) : Nat :=
  clip (if cfgDepth s.srcCfg = 1 then rndRat s.config.params.tie q else truncRat q)

/-- The sum of all weights of a kernel. -/
def weightSum (K : Kernel) : Int := ∑ i ∈ Finset.range K.dim, ∑ j ∈ Finset.range K.dim, K.weight i j

/-- The transpose of a buffer: `Transpose(S)[y, x] = S[x, y]` (45 R168 (e)). -/
def transpose (S : Buffer) : Buffer :=
  Buffer.tabulate S.w S.h S.d S.fmt S.chord fun y x c => S.sample x y c

/-- The two states agree on everything an operation may depend on: the parameters, the source descriptor, and the
words of `SRC` inside the source buffer (10_state R25, R36). -/
structure SameSource (s s' : State) : Prop where
  config : s'.config = s.config
  srcH   : s'.srcH = s.srcH
  srcW   : s'.srcW = s.srcW
  srcCfg : s'.srcCfg = s.srcCfg
  words  : ∀ k, k < sourceSize s → srcWord s' k = srcWord s k

end Sys2Proof.Claims

open Sys2Proof Sys2Proof.Machine Sys2Proof.Claims

/-! ## Exact arithmetic (00_scope) -/

/-- 00_scope R8: `a div n` is the greatest integer `q` with `q · n ≤ a`, and `a mod n = a − (a div n) · n` lies in
`0 .. n − 1`, for every integer `a`; the floor and the ceiling of `a / n` are `a div n` and `−((−a) div n)`. -/
def Obligations.FloorDivisionAndRemainder : Prop :=
  ∀ (a : Int) (n : Nat), 0 < n →
    floorDiv a n * n ≤ a ∧ (∀ q : Int, q * n ≤ a → q ≤ floorDiv a n)
    ∧ modulo a n = a - floorDiv a n * n ∧ 0 ≤ modulo a n ∧ modulo a n < n
    ∧ ((a : ℚ) / (n : ℚ)).floor = floorDiv a n ∧ ((a : ℚ) / (n : ℚ)).ceil = -floorDiv (-a) n

/-- 00_scope R9: the machine's `trunc` of `N / D` is the integer part toward zero, and clipped it equals the clipped
floor. -/
def Obligations.TruncationTowardZero : Prop :=
  ∀ (N : Int) (D : Nat), 0 < D →
    (0 ≤ N → trunc N D = ((N : ℚ) / (D : ℚ)).floor)
    ∧ (N < 0 → trunc N D = -(-((N : ℚ) / (D : ℚ))).floor)
    ∧ clip (trunc N D) = clip ((N : ℚ) / (D : ℚ)).floor

/-- 00_scope R10: the machine's `rnd` of `N / D`, computed on integers, is the `rnd` of the rational, an integer nearest
to it: the floor when the fraction is below a half, the floor plus 1 when above; at a tie `EVEN` takes the even
neighbour and `UP` the upper one. -/
def Obligations.RoundingToNearest : Prop :=
  ∀ (tie : Tie) (N : Int) (D : Nat), 0 < D →
    rnd tie N D = rndRat tie ((N : ℚ) / (D : ℚ))
    ∧ |((rnd tie N D : Int) : ℚ) - (N : ℚ) / (D : ℚ)| ≤ 1 / 2
    ∧ (((N : ℚ) / (D : ℚ)) - ((N : ℚ) / (D : ℚ)).floor < 1 / 2 → rnd tie N D = ((N : ℚ) / (D : ℚ)).floor)
    ∧ (1 / 2 < ((N : ℚ) / (D : ℚ)) - ((N : ℚ) / (D : ℚ)).floor → rnd tie N D = ((N : ℚ) / (D : ℚ)).floor + 1)
    ∧ (((N : ℚ) / (D : ℚ)) - ((N : ℚ) / (D : ℚ)).floor = 1 / 2 →
        (tie = .even → rnd tie N D % 2 = 0) ∧ (tie = .up → rnd tie N D = ((N : ℚ) / (D : ℚ)).floor + 1))

/-- 00_scope R11: `clip` in one formula. -/
def Obligations.ClippingToByteRange : Prop :=
  ∀ n : Int, (clip n : Int) = max 0 (min 255 n)

/-! ## Reset (10_state R33, 70_reset) -/

/-- 10_state R33 at the state the model starts from: eight registers zero and every word of both memories the free
value. The model's own fields are DESIGN CHOICE (log 1, 2, 4, 6) and nothing is said of them. -/
def Obligations.ResetStateRegisters : Prop :=
  State.reset.cmd = 0 ∧ State.reset.status = 0 ∧ State.reset.srcH = 0 ∧ State.reset.srcW = 0
  ∧ State.reset.srcCfg = 0 ∧ State.reset.dstH = 0 ∧ State.reset.dstW = 0 ∧ State.reset.dstCfg = 0
  ∧ ∀ a, srcWord State.reset a = Config.unspecifiedWord State.reset.draws .src a
      ∧ dstWord State.reset a = Config.unspecifiedWord State.reset.draws .dst a

/-- 70 R210: `Reset` from any state, busy or idle: the eight registers read zero, every word of both memories becomes
unspecified by a fresh draw, the tables are unaffected. -/
def Obligations.ResetFromAnyState : Prop :=
  ∀ s : State,
    (∀ n, readRegister n (perform .reset s) = 0)
    ∧ (perform .reset s).status = 0 ∧ (perform .reset s).dstCfg = 0
    ∧ (∀ a, srcWord (perform .reset s) a = Config.unspecifiedWord (s.draws + 1) .src a
        ∧ dstWord (perform .reset s) a = Config.unspecifiedWord (s.draws + 1) .dst a)
    ∧ (perform .reset s).config = s.config

/-- 70 R211: `Reset` while busy abandons the held command: BUSY is 0 with neither DONE nor ERR, the destination
descriptor reads 0 and the destination memory is unspecified (its form, a fresh free value, is the model's choice of
log 2). That the engine's turn then answers the same state is the model's form (log 5, 60_exceptions R206) of
'COMPLETE is no longer enabled'. -/
def Obligations.ResetAbandonsHeldCommand : Prop :=
  ∀ s : State, isBusy s = true →
    isBusy (perform .reset s) = false
    ∧ doneFlag (perform .reset s).status = false ∧ errFlag (perform .reset s).status = false
    ∧ engineTurn (perform .reset s) = .next (perform .reset s)
    ∧ readRegister 5 (perform .reset s) = 0 ∧ readRegister 6 (perform .reset s) = 0
    ∧ readRegister 7 (perform .reset s) = 0
    ∧ ∀ a, dstWord (perform .reset s) a = Config.unspecifiedWord (s.draws + 1) .dst a

/-- 70 R212: after `Reset` the CORE is idle with an empty destination and a malformed source; a command started there
completes with `ShapeError` if its word is defined, with its lookup error if not. -/
def Obligations.CommandAfterResetFails : Prop :=
  ∀ (s : State) (w : Word),
    isBusy (perform .reset s) = false ∧ doneFlag (perform .reset s).status = false
    ∧ errFlag (perform .reset s).status = false
    ∧ (perform .reset s).dstH = 0 ∧ (perform .reset s).dstW = 0 ∧ (perform .reset s).dstCfg = 0
    ∧ sourceOk (perform .reset s) = false
    ∧ ∃ t, engineTurn (perform (.regWrite 0 w) (perform .reset s)) = .next t
        ∧ Failed (perform (.regWrite 0 w) (perform .reset s)) t
            (match decode w with
             | .ok _ => 1
             | .error .unknownKernel => 3
             | .error .unknownOperation => 4)

/-! ## The host port (20_memory) -/

/-- 20_memory R52: while busy a write of any kind to any target changes nothing but `WBUSY`, which becomes 1, and no
read is affected by `BUSY`. -/
def Obligations.BusyWriteIsDropped : Prop :=
  ∀ (s : State) (t : Transaction), isBusy s = true →
    ((∃ n v, t = .regWrite n v) ∨ (∃ a v, t = .srcWrite a v) ∨ (∃ a v, t = .dstWrite a v) →
      (perform t s).status.getLsbD 3 = true
      ∧ (∀ j, j ≠ 3 → (perform t s).status.getLsbD j = s.status.getLsbD j)
      ∧ perform t s = { s with status := (perform t s).status, response := none })
    ∧ ((∃ a, t = .srcRead a) ∨ (∃ a, t = .dstRead a) ∨ (∃ n, n ≠ 1 ∧ t = .regRead n) →
      ∀ st : Word, transactionReturns t { s with status := st } = transactionReturns t s)

/-- 20_memory R53, START: `RegWrite(0, v)` while idle stores the word and makes the engine busy, whatever `v` and the
source are; after it only COMPLETE, `Reset` and dropped writes setting `WBUSY` can change the state: a read changes
nothing but the model's `response` (log 6), and a write changes besides it only `WBUSY`, which becomes 1. -/
def Obligations.StartHoldsCommand : Prop :=
  ∀ (s : State) (v : Word), isBusy s = false →
    (perform (.regWrite 0 v) s).cmd = v
    ∧ busyFlag (perform (.regWrite 0 v) s).status = true ∧ doneFlag (perform (.regWrite 0 v) s).status = false
    ∧ errFlag (perform (.regWrite 0 v) s).status = false ∧ ecodeField (perform (.regWrite 0 v) s).status = 0
    ∧ wbusyFlag (perform (.regWrite 0 v) s).status = wbusyFlag s.status
    ∧ perform (.regWrite 0 v) s
        = { s with cmd := v, status := (perform (.regWrite 0 v) s).status, response := none }
    ∧ (∀ t : Transaction,
        (∃ n, t = .regRead n) ∨ (∃ a, t = .srcRead a) ∨ (∃ a, t = .dstRead a) →
        perform t (perform (.regWrite 0 v) s)
          = { perform (.regWrite 0 v) s with
              response := (perform t (perform (.regWrite 0 v) s)).response })
    ∧ ∀ t : Transaction,
        (∃ n u, t = .regWrite n u) ∨ (∃ a u, t = .srcWrite a u) ∨ (∃ a u, t = .dstWrite a u) →
        perform t (perform (.regWrite 0 v) s)
          = { perform (.regWrite 0 v) s with
              status := (perform t (perform (.regWrite 0 v) s)).status, response := none }
        ∧ wbusyFlag (perform t (perform (.regWrite 0 v) s)).status = true
        ∧ ∀ j, j ≠ 3 → (perform t (perform (.regWrite 0 v) s)).status.getLsbD j
            = (perform (.regWrite 0 v) s).status.getLsbD j

/-- 20_memory R54: `SrcWrite` while idle stores all 32 bits at an address below the capacity and is dropped at or above
it; nothing else changes. -/
def Obligations.SourceWriteStores : Prop :=
  ∀ (s : State) (a : Nat) (v : Word), isBusy s = false →
    (a < s.config.params.srcCap →
      srcWord (perform (.srcWrite a v) s) a = v
      ∧ (∀ b, b ≠ a → srcWord (perform (.srcWrite a v) s) b = srcWord s b)
      ∧ perform (.srcWrite a v) s = { s with src := (perform (.srcWrite a v) s).src, response := none })
    ∧ (s.config.params.srcCap ≤ a → perform (.srcWrite a v) s = { s with response := none })

/-- 20_memory R55: `SrcRead` returns the word below the capacity and 0 above, and changes nothing, busy or idle. -/
def Obligations.SourceReadReturns : Prop :=
  ∀ (s : State) (a : Nat),
    (a < s.config.params.srcCap → (perform (.srcRead a) s).response = some (srcWord s a))
    ∧ (s.config.params.srcCap ≤ a → (perform (.srcRead a) s).response = some 0x00000000#32)
    ∧ perform (.srcRead a) s = { s with response := (perform (.srcRead a) s).response }

/-- 20_memory R56: `RegWrite` while idle, by register number. -/
def Obligations.RegisterWriteByNumber : Prop :=
  ∀ (s : State) (n : Nat) (v : Word), isBusy s = false →
    (n = 0 → perform (.regWrite n v) s = { start v s with response := none })
    ∧ (n = 1 →
        wbusyFlag (perform (.regWrite n v) s).status = (wbusyFlag s.status && !v.getLsbD 3)
        ∧ (∀ j, j ≠ 3 → (perform (.regWrite n v) s).status.getLsbD j = s.status.getLsbD j)
        ∧ perform (.regWrite n v) s
            = { s with status := (perform (.regWrite n v) s).status, response := none })
    ∧ (n = 2 → perform (.regWrite n v) s = { s with srcH := v, response := none })
    ∧ (n = 3 → perform (.regWrite n v) s = { s with srcW := v, response := none })
    ∧ (n = 4 → perform (.regWrite n v) s = { s with srcCfg := v, response := none })
    ∧ (5 ≤ n → perform (.regWrite n v) s = { s with response := none })

/-- 20_memory R57: `DstRead` returns the word below the capacity and 0 above and changes nothing; `DstWrite` is always
dropped, setting `WBUSY` while busy and with no effect at all while idle. -/
def Obligations.DestinationAccess : Prop :=
  ∀ (s : State) (a : Nat) (v : Word),
    (a < s.config.params.dstCap → (perform (.dstRead a) s).response = some (dstWord s a))
    ∧ (s.config.params.dstCap ≤ a → (perform (.dstRead a) s).response = some 0x00000000#32)
    ∧ perform (.dstRead a) s = { s with response := (perform (.dstRead a) s).response }
    ∧ (isBusy s = false → perform (.dstWrite a v) s = { s with response := none })
    ∧ (isBusy s = true →
        wbusyFlag (perform (.dstWrite a v) s).status = true
        ∧ (∀ j, j ≠ 3 → (perform (.dstWrite a v) s).status.getLsbD j = s.status.getLsbD j)
        ∧ perform (.dstWrite a v) s = { s with status := (perform (.dstWrite a v) s).status, response := none })

/-- 20_memory R58: `RegRead` returns the register's value, reserved bits of `STATUS` and of the destination
configuration as 0, 0 for a number of 8 or more, and changes nothing. -/
def Obligations.RegisterReadReturns : Prop :=
  ∀ (s : State) (n : Nat),
    (perform (.regRead n) s).response = some (readRegister n s)
    ∧ perform (.regRead n) s = { s with response := some (readRegister n s) }
    ∧ readRegister 0 s = s.cmd ∧ readRegister 2 s = s.srcH ∧ readRegister 3 s = s.srcW
    ∧ readRegister 4 s = s.srcCfg ∧ readRegister 5 s = s.dstH ∧ readRegister 6 s = s.dstW
    ∧ (∀ j, (readRegister 1 s).getLsbD j
        = (s.status.getLsbD j && decide (j ≤ 3 ∨ 8 ≤ j ∧ j ≤ 10)))
    ∧ (∀ j, (readRegister 7 s).getLsbD j = (s.dstCfg.getLsbD j && decide (j ≤ 3)))
    ∧ (8 ≤ n → readRegister n s = 0x00000000#32)

/-- 20_memory R62: the source check is the six tests. -/
def Obligations.SourceCheckIsSixTests : Prop :=
  ∀ s : State, sourceOk s = true ↔
    s.srcCfg.toNat / 16 = 0
    ∧ (s.srcCfg.toNat % 4 = 1 ∨ s.srcCfg.toNat % 4 = 3)
    ∧ (1 ≤ s.srcH.toNat ∧ 1 ≤ s.srcW.toNat)
    ∧ ¬(s.srcCfg.getLsbD 2 = true ∧ s.srcCfg.toNat % 4 = 3)
    ∧ s.srcH.toNat * s.srcW.toNat * (s.srcCfg.toNat % 4) ≤ s.config.params.srcCap
    ∧ ∀ k, k < s.srcH.toNat * s.srcW.toNat * (s.srcCfg.toNat % 4) →
        (srcWord s k).toNat ≤ if s.srcCfg.getLsbD 2 then 255000 else 255

/-- 60_exceptions R181: every operation ends with `ShapeError`, code 1, when the source fails a test or the result is
larger than `DST_CAP` by the table of 20_memory R67, and only then. -/
def Obligations.ShapeErrorOfEveryOperation : Prop :=
  ∀ (i : Instr) (s : State), i.wellFormed = true →
    ((sourceOk s = false ∨ s.config.params.dstCap < resultSizeIn i s) → ∃ t, exec i s = .next t ∧ Failed s t 1)
    ∧ ∀ t, ecodeField s.status ≠ 1 → exec i s = .next t → ecodeField t.status = 1 →
        sourceOk s = false ∨ s.config.params.dstCap < resultSizeIn i s

/-! ## Command words (30_encoding) -/

/-- Decode and encode agree: decoding the command word of a well-formed operation gives it back, both immediates of
`adjust` at every value. -/
def Obligations.DecodeOfEncode : Prop :=
  ∀ i : Instr, i.wellFormed = true → decode (encode i) = .ok i

/-- The other direction: a word that decodes is the command word of the operation it decodes to, which is well
formed. -/
def Obligations.EncodeOfDecode : Prop :=
  ∀ (w : Word) (i : Instr), decode w = .ok i → i.wellFormed = true ∧ encode i = w

/-- 30_encoding R82: the decoder and the opcode table agree on all 2^32 words, and no two rows overlap. -/
def Obligations.DecoderAgreesWithOpcodeTable : Prop :=
  ∀ w : Word,
    (∀ i, decode w = .ok i → ∃ r ∈ opcodeTable, r.selects w = true ∧ r.mnemonic = i.mnemonic)
    ∧ (∀ r ∈ opcodeTable, r.selects w = true → ∃ i, decode w = .ok i ∧ i.mnemonic = r.mnemonic)
    ∧ (∀ r ∈ opcodeTable, ∀ r' ∈ opcodeTable, r.selects w = true → r'.selects w = true → r = r')

/-- 60_exceptions R183, R184, 30_encoding R86: which words raise which lookup error. -/
def Obligations.LookupErrorOfEveryWord : Prop :=
  ∀ w : Word,
    (decode w = .error .unknownKernel ↔ bits w 7 4 = 0x1 ∧ 11 ≤ bits w 3 0)
    ∧ (decode w = .error .unknownOperation ↔
        ¬(bits w 7 4 = 0x1 ∧ 11 ≤ bits w 3 0) ∧ ∀ r ∈ opcodeTable, r.selects w = false)

/-- Words written out from 30_encoding R82, one of each format and class, decode to what they stand for. -/
def Obligations.DecodedWords : Prop :=
  decode 0b00000000000000000000000000000001#32 = .ok .grayscale
  ∧ decode 0b00000000000010010000000000000010#32 = .ok (.adjust 0 9)
  ∧ decode 0b00000000000000000000000000010101#32 = .ok .motion
  ∧ decode 0b00000000000000000000000000100101#32 = .ok .downscale
  ∧ decode 0b11111111111111111111111100011111#32 = .error .unknownKernel
  ∧ decode 0b00000000000000000000000000000000#32 = .error .unknownOperation

/-- 30_encoding R89: a line that assembles begins with the mnemonic of its command, and the command is well formed, so
an operand outside `0 .. 255` is an assembly error and never an encoding; and the spec's own lines give its words. -/
def Obligations.AssembledLines : Prop :=
  (∀ (line : List Char) (i : Instr), assembleLine line = .ok i →
    i.wellFormed = true ∧ (trimBlanks line).takeWhile (· != ' ') = i.mnemonic.toList)
  ∧ (assembleLine "adjust 0, 9".toList).map encode = .ok 0x00090002#32
  ∧ (assembleLine "adjust 9, 0".toList).map encode = .ok 0x00000902#32
  ∧ (assembleLine "adjust 255, 255".toList).map encode = .ok 0x00FFFF02#32
  ∧ (assembleLine "adjust 256, 0".toList).map encode = .error .operandRange
  ∧ (assembleLine "rot90".toList).map encode = .ok 0x00000020#32

/-! ## Steps and the engine (20_memory R66, R68, 60_exceptions) -/

/-- A step runs the decoded operation: when a command is held, it is the engine's turn and the word decodes, the step is
`exec` of that operation, the event taken off the schedule. That a schedule with nothing left gives the engine its
turn (the second clause) is the model's choice (log 4). -/
def Obligations.StepRunsDecodedOperation : Prop :=
  ∀ (s : State) (rest : List Event) (i : Instr), isBusy s = true → decode s.cmd = .ok i →
    (s.schedule = .engine :: rest → step s = exec i { s with schedule := rest })
    ∧ (s.schedule = [] → step s = exec i s)

/-- The other steps: a lookup error is reported before the source is looked at, a transaction takes effect, and an idle
engine's turn changes nothing. The model's choices are that a schedule with nothing left gives the engine its turn
(log 4) and that this turn changes nothing while idle (log 5). -/
def Obligations.StepOtherwise : Prop :=
  ∀ (s : State) (rest : List Event),
    (∀ e, isBusy s = true → decode s.cmd = .error e → s.schedule = .engine :: rest →
      ∃ t, step s = .next t ∧ Failed { s with schedule := rest } t (if e = .unknownKernel then 3 else 4))
    ∧ (∀ e, isBusy s = true → decode s.cmd = .error e → s.schedule = [] →
      ∃ t, step s = .next t ∧ Failed s t (if e = .unknownKernel then 3 else 4))
    ∧ (∀ tr, s.schedule = .host tr :: rest → step s = .next (perform tr { s with schedule := rest }))
    ∧ (isBusy s = false → s.schedule = .engine :: rest → step s = .next { s with schedule := rest })
    ∧ (isBusy s = false → s.schedule = [] → step s = .next s)

/-- Nothing stops the machine (20_memory R59, 60_exceptions R188): every step answers a next state. -/
def Obligations.EveryStepAnswersNext : Prop :=
  ∀ s : State, ∃ t, step s = .next t

/-- A started command word runs: the step after `withFetchWord` is `exec` of the decoded operation on the started state
(the model's way to load a command, log 7). -/
def Obligations.FetchedWordRuns : Prop :=
  ∀ (s : State) (i : Instr), i.wellFormed = true →
    step (s.withFetchWord 32 (encode i).toNat) = exec i (start (encode i) s)

/-- 20_memory R66 and 60_exceptions R188, the frame of all 21 operations: besides the destination and the result fields
of STATUS nothing changes; a failed command changes nothing of the destination; a successful one changes no word of
`DST` at or above the size of its result; from a state with DONE and ERR 0, as START leaves them, exactly one of the two
is set. -/
def Obligations.OperationFrame : Prop :=
  ∀ (i : Instr) (s t : State), i.wellFormed = true → exec i s = .next t →
    SameBesidesResult s t ∧ t.status.getLsbD 0 = false
    ∧ (∀ a, resultSizeIn i s ≤ a → dstWord t a = dstWord s a)
    ∧ ((t.status.getLsbD 1 = true ∧ t.status.getLsbD 2 = s.status.getLsbD 2
          ∧ ecodeField t.status = ecodeField s.status)
      ∨ Failed s t (ecodeField t.status))
    ∧ (s.status.getLsbD 1 = false → s.status.getLsbD 2 = false →
        t.status.getLsbD 2 = !t.status.getLsbD 1)

/-- 60_exceptions R190: the errors each operation can report. Only `ShapeError`, and for `adjust` and `halftone` also
`DomainError`; no operation reports a lookup error or `IndexDefectError`. -/
def Obligations.ErrorsOfEachOperation : Prop :=
  ∀ (i : Instr) (s t : State), i.wellFormed = true → s.status.getLsbD 2 = false → exec i s = .next t →
    t.status.getLsbD 2 = true →
      ecodeField t.status = 1
      ∨ (ecodeField t.status = 2 ∧ (i = .halftone ∨ ∃ newMin newMax, i = .adjust newMin newMax))

/-- 43 R125: `IndexDefectError` is unreachable: no source buffer makes `halftone` raise it, and no step brings its code
into STATUS. -/
def Obligations.IndexDefectIsUnreachable : Prop :=
  (∀ (c : Config) (S : Buffer), S.wellFormed = true → halftone c S ≠ .error .indexDefect)
  ∧ ∀ s t : State, step s = .next t → ecodeField s.status ≠ 5 → ecodeField t.status ≠ 5

/-! ## The grayscale converter (41) -/

/-- 41 R101: a colour source becomes its exact luminance in `YM`, a grayscale source is copied unchanged. -/
def Obligations.GrayscaleResult : Prop :=
  ∀ s : State, sourceOk s = true → s.srcH.toNat * s.srcW.toNat ≤ s.config.params.dstCap →
    (cfgDepth s.srcCfg = 3 →
      ∃ t, exec .grayscale s = .next t ∧ Completed s t s.srcH.toNat s.srcW.toNat 1 .ym .rgb
        ∧ ∀ y x, y < s.srcH.toNat → x < s.srcW.toNat →
            ((dstAt t s.srcW.toNat 1 y x 0 : Nat) : ℚ) / 1000
              = 299 / 1000 * (srcAt s y x (redIndex s) : ℚ) + 587 / 1000 * (srcAt s y x 1 : ℚ)
                + 114 / 1000 * (srcAt s y x (blueIndex s) : ℚ))
    ∧ (cfgDepth s.srcCfg = 1 →
      ∃ t, exec .grayscale s = .next t
        ∧ Completed s t s.srcH.toNat s.srcW.toNat 1 (cfgFormat s.srcCfg) (cfgOrder s.srcCfg)
        ∧ ∀ y x, y < s.srcH.toNat → x < s.srcW.toNat → dstAt t s.srcW.toNat 1 y x 0 = srcAt s y x 0)

/-- 41 R102 (a), (c), (d) and (b) for a `U8` source: `Gray` is idempotent, keeps height and width, never gives depth 3
or a raw above 255000, gives `YM` exactly for a colour source, and is monotone in each channel. A depth-1 `YM` source is
returned unchanged by R101, so (b) is stated for `U8` sources (log 19). -/
def Obligations.GrayscaleProperties : Prop :=
  (∀ S : Buffer, S.wellFormed = true →
    gray (gray S) = gray S ∧ (gray S).h = S.h ∧ (gray S).w = S.w ∧ (gray S).d = 1
    ∧ (∀ r ∈ (gray S).raw, r ≤ 255000)
    ∧ (S.fmt = .u8 → ((gray S).fmt = .ym ↔ S.d = 3)))
  ∧ ∀ S S' : Buffer, S.wellFormed = true → S'.wellFormed = true → S'.h = S.h → S'.w = S.w → S'.d = S.d →
      S'.fmt = S.fmt → S'.chord = S.chord →
      (∀ y x c, y < S.h → x < S.w → c < S.d → S.sample y x c ≤ S'.sample y x c) →
      ∀ y x, y < S.h → x < S.w → (gray S).sample y x 0 ≤ (gray S').sample y x 0

/-! ## The range adjuster (42) -/

/-- 42 R110, R112: on a grayscale source whose samples are not all equal, every output sample is the rounded linear remap
of the sample's value, as the document's formula has it, in exact rational arithmetic; `lo` and `hi` are the least and
greatest raw samples. Any pair of immediates is accepted (R113). -/
def Obligations.AdjustResult : Prop :=
  ∀ (s : State) (newMin newMax lo hi : Nat), newMin ≤ 255 → newMax ≤ 255 → sourceOk s = true →
    cfgDepth s.srcCfg = 1 → s.srcH.toNat * s.srcW.toNat ≤ s.config.params.dstCap →
    (∀ k, k < s.srcH.toNat * s.srcW.toNat → lo ≤ (srcWord s k).toNat ∧ (srcWord s k).toNat ≤ hi) →
    (∃ k, k < s.srcH.toNat * s.srcW.toNat ∧ (srcWord s k).toNat = lo) →
    (∃ k, k < s.srcH.toNat * s.srcW.toNat ∧ (srcWord s k).toNat = hi) → lo ≠ hi →
    ∃ t, exec (.adjust newMin newMax) s = .next t
      ∧ Completed s t s.srcH.toNat s.srcW.toNat 1 .u8 (cfgOrder s.srcCfg)
      ∧ ∀ y x, y < s.srcH.toNat → x < s.srcW.toNat →
          ((dstAt t s.srcW.toNat 1 y x 0 : Nat) : Int)
            = rndRat s.config.params.tie
                (((srcAt s y x 0 : ℚ) / ((cfgFormat s.srcCfg).scale : ℚ)
                    - (lo : ℚ) / ((cfgFormat s.srcCfg).scale : ℚ)) * ((newMax : ℚ) - (newMin : ℚ))
                  / ((hi : ℚ) / ((cfgFormat s.srcCfg).scale : ℚ) - (lo : ℚ) / ((cfgFormat s.srcCfg).scale : ℚ))
                  + (newMin : ℚ))

/-- 42 R111: after the source check and the size check, a colour source or a constant one fails with `DomainError`, code
2, whatever the immediates. -/
def Obligations.AdjustDomainError : Prop :=
  ∀ (s : State) (newMin newMax : Nat), newMin ≤ 255 → newMax ≤ 255 → sourceOk s = true →
    s.srcH.toNat * s.srcW.toNat ≤ s.config.params.dstCap →
    (cfgDepth s.srcCfg = 3
      ∨ ∀ j k, j < s.srcH.toNat * s.srcW.toNat → k < s.srcH.toNat * s.srcW.toNat → srcWord s j = srcWord s k) →
    ∃ t, exec (.adjust newMin newMax) s = .next t ∧ Failed s t 2

/-- 42 R114 (a) to (c): an adjusted sample lies between the two immediates, the ends are hit, and the map is monotone in
the direction of the immediates. -/
def Obligations.AdjustProperties : Prop :=
  ∀ (tie : Tie) (rmin rmax newMin newMax : Nat), rmin < rmax →
    adjustSample tie rmin rmax newMin newMax rmin = newMin
    ∧ adjustSample tie rmin rmax newMin newMax rmax = newMax
    ∧ (∀ v, rmin ≤ v → v ≤ rmax →
        min newMin newMax ≤ adjustSample tie rmin rmax newMin newMax v
        ∧ adjustSample tie rmin rmax newMin newMax v ≤ max newMin newMax)
    ∧ ∀ v v', rmin ≤ v → v ≤ v' → v' ≤ rmax →
        (newMin ≤ newMax →
          adjustSample tie rmin rmax newMin newMax v ≤ adjustSample tie rmin rmax newMin newMax v')
        ∧ (newMax ≤ newMin →
          adjustSample tie rmin rmax newMin newMax v' ≤ adjustSample tie rmin rmax newMin newMax v)

/-! ## The halftone encoder (43) -/

/-- 43 R120: in every instance the pattern with index `k` has exactly `k` cells on, and each pattern adds exactly one
cell to the one before. -/
def Obligations.MaskAddsOneCellPerLevel : Prop :=
  ∀ (c : Config) (k : Nat), k ≤ 9 →
    (∀ a b, c.mask k a b = 0 ∨ c.mask k a b = 1)
    ∧ (∑ a : Fin 3, ∑ b : Fin 3, c.mask k a b) = k
    ∧ (k < 9 →
        (∀ a b, c.mask k a b ≤ c.mask (k + 1) a b)
        ∧ ∃ a b, c.mask k a b = 0 ∧ c.mask (k + 1) a b = 1
            ∧ ∀ a' b', c.mask k a' b' = 0 → c.mask (k + 1) a' b' = 1 → a' = a ∧ b' = b)

/-- 43 R123, R124, R126 (a), (b): when the luminances are not all equal, the result is 3 times as high and wide, and the
block of pixel `(r, c)` is 255 times the mask of its adjusted intensity, the rounded remap of its exact luminance to
`0 .. 9`; `lo` and `hi` are the least and greatest luminance raws. The height and width are written to 32-bit registers,
so with a `DST_CAP` of 2^32 or more the descriptor holds them modulo 2^32 (00_scope R7; DEDUCED, log 11). -/
def Obligations.HalftoneResult : Prop :=
  ∀ (s : State) (lo hi : Nat), sourceOk s = true →
    3 * s.srcH.toNat * (3 * s.srcW.toNat) ≤ s.config.params.dstCap →
    (∀ y x, y < s.srcH.toNat → x < s.srcW.toNat → lo ≤ lumAt s y x ∧ lumAt s y x ≤ hi) →
    (∃ y x, y < s.srcH.toNat ∧ x < s.srcW.toNat ∧ lumAt s y x = lo) →
    (∃ y x, y < s.srcH.toNat ∧ x < s.srcW.toNat ∧ lumAt s y x = hi) → lo ≠ hi →
    ∃ t, exec .halftone s = .next t
      ∧ Completed s t (3 * s.srcH.toNat) (3 * s.srcW.toNat) 1 .u8
          (if cfgDepth s.srcCfg = 1 then cfgOrder s.srcCfg else .rgb)
      ∧ ∀ (y x : Nat) (a b : Fin 3), y < s.srcH.toNat → x < s.srcW.toNat →
          dstAt t (3 * s.srcW.toNat) 1 (3 * y + a) (3 * x + b) 0
            = 255 * s.config.mask
                (rndRat s.config.params.tie
                  (((lumAt s y x : ℚ) - (lo : ℚ)) * 9 / ((hi : ℚ) - (lo : ℚ)))).toNat a b

/-- 43 R124, 60_exceptions R182: when all luminances are equal `halftone` fails with `DomainError`, code 2. -/
def Obligations.HalftoneDomainError : Prop :=
  ∀ s : State, sourceOk s = true → 3 * s.srcH.toNat * (3 * s.srcW.toNat) ≤ s.config.params.dstCap →
    (∀ y x y' x', y < s.srcH.toNat → x < s.srcW.toNat → y' < s.srcH.toNat → x' < s.srcW.toNat →
      lumAt s y x = lumAt s y' x') →
    ∃ t, exec .halftone s = .next t ∧ Failed s t 2

/-! ## The convolution engine (44) -/

/-- 44 R135, for all eleven kernel operations and every admissible table: the result has the source's shape and channel
order in `U8`, and each sample is the exact wrapped weighted sum of values, rounded for grayscale, truncated for colour,
clipped. -/
def Obligations.KernelResult : Prop :=
  ∀ (i : Instr) (k : Fin 11) (s : State), kernelIndex i = some k → sourceOk s = true →
    s.srcH.toNat * s.srcW.toNat * cfgDepth s.srcCfg ≤ s.config.params.dstCap →
    ∃ t, exec i s = .next t
      ∧ Completed s t s.srcH.toNat s.srcW.toNat (cfgDepth s.srcCfg) .u8 (cfgOrder s.srcCfg)
      ∧ ∀ y x ch, y < s.srcH.toNat → x < s.srcW.toNat → ch < cfgDepth s.srcCfg →
          dstAt t s.srcW.toNat (cfgDepth s.srcCfg) y x ch
            = narrowed s (weightedSum (s.config.kernel k) s y x ch)

/-- 44 R140: `mean` is the arithmetic mean of the nine samples of the wrapped 3×3 window, rounded or truncated; so a 1×1
colour pixel is returned unchanged (the document's scenario). -/
def Obligations.MeanIsNinthOfWindow : Prop :=
  ∀ s : State, sourceOk s = true →
    s.srcH.toNat * s.srcW.toNat * cfgDepth s.srcCfg ≤ s.config.params.dstCap →
    ∃ t, exec .mean s = .next t
      ∧ (∀ y x ch, y < s.srcH.toNat → x < s.srcW.toNat → ch < cfgDepth s.srcCfg →
          dstAt t s.srcW.toNat (cfgDepth s.srcCfg) y x ch
            = narrowed s
                ((∑ i ∈ Finset.range 3, ∑ j ∈ Finset.range 3,
                  ((srcAt s ((y + s.srcH.toNat + j - 1) % s.srcH.toNat)
                    ((x + s.srcW.toNat + i - 1) % s.srcW.toNat) ch : Nat) : ℚ)
                      / ((cfgFormat s.srcCfg).scale : ℚ)) / 9))
      ∧ (s.srcH.toNat = 1 → s.srcW.toNat = 1 → cfgDepth s.srcCfg = 3 →
          ∀ ch, ch < 3 → dstWord t ch = srcWord s ch)

/-- 44 R137 (b), R150: `identity` returns every `U8` source unchanged, descriptor and samples, for every admissible
table; a `YM` source becomes the `U8` buffer of its values rounded, its shape and channel order kept. -/
def Obligations.IdentityReturnsSource : Prop :=
  ∀ s : State, sourceOk s = true →
    s.srcH.toNat * s.srcW.toNat * cfgDepth s.srcCfg ≤ s.config.params.dstCap →
    ∃ t, exec .identity s = .next t
      ∧ (cfgFormat s.srcCfg = .u8 →
          t.dstH = s.srcH ∧ t.dstW = s.srcW ∧ t.dstCfg = s.srcCfg ∧ destBuffer t = sourceBuffer s
          ∧ ∀ k, k < sourceSize s → dstWord t k = srcWord s k)
      ∧ (cfgFormat s.srcCfg = .ym →
          Completed s t s.srcH.toNat s.srcW.toNat 1 .u8 (cfgOrder s.srcCfg)
          ∧ ∀ k, k < sourceSize s →
              ((dstWord t k).toNat : Int) = rndRat s.config.params.tie (((srcWord s k).toNat : ℚ) / 1000))

/-- 44 R137 (c), (d): where every sample of a channel equals `v`, every result sample of it is the clipped rounded or
truncated `v · W / (s · div)`, `W` the sum of all weights; in particular on a 1×1 image. -/
def Obligations.ConstantChannelStaysConstant : Prop :=
  ∀ (i : Instr) (k : Fin 11) (s : State) (ch v : Nat), kernelIndex i = some k → sourceOk s = true →
    s.srcH.toNat * s.srcW.toNat * cfgDepth s.srcCfg ≤ s.config.params.dstCap → ch < cfgDepth s.srcCfg →
    (∀ y x, y < s.srcH.toNat → x < s.srcW.toNat → srcAt s y x ch = v) →
    ∃ t, exec i s = .next t
      ∧ ∀ y x, y < s.srcH.toNat → x < s.srcW.toNat →
          dstAt t s.srcW.toNat (cfgDepth s.srcCfg) y x ch
            = narrowed s ((v : ℚ) * (weightSum (s.config.kernel k) : ℚ)
                / (((cfgFormat s.srcCfg).scale : ℚ) * ((s.config.kernel k).div : ℚ)))

/-! ## The geometric transforms (45) -/

/-- 45 R161 to R163: the three rotations, sample by sample, every channel in place. -/
def Obligations.RotationResults : Prop :=
  ∀ s : State, sourceOk s = true →
    s.srcH.toNat * s.srcW.toNat * cfgDepth s.srcCfg ≤ s.config.params.dstCap →
    (∃ t, exec .rot90 s = .next t
      ∧ Completed s t s.srcW.toNat s.srcH.toNat (cfgDepth s.srcCfg) (cfgFormat s.srcCfg) (cfgOrder s.srcCfg)
      ∧ ∀ y x ch, y < s.srcW.toNat → x < s.srcH.toNat → ch < cfgDepth s.srcCfg →
          dstAt t s.srcH.toNat (cfgDepth s.srcCfg) y x ch = srcAt s (s.srcH.toNat - 1 - x) y ch)
    ∧ (∃ t, exec .rotm90 s = .next t
      ∧ Completed s t s.srcW.toNat s.srcH.toNat (cfgDepth s.srcCfg) (cfgFormat s.srcCfg) (cfgOrder s.srcCfg)
      ∧ ∀ y x ch, y < s.srcW.toNat → x < s.srcH.toNat → ch < cfgDepth s.srcCfg →
          dstAt t s.srcH.toNat (cfgDepth s.srcCfg) y x ch = srcAt s x (s.srcW.toNat - 1 - y) ch)
    ∧ (∃ t, exec .rot180 s = .next t
      ∧ Completed s t s.srcH.toNat s.srcW.toNat (cfgDepth s.srcCfg) (cfgFormat s.srcCfg) (cfgOrder s.srcCfg)
      ∧ ∀ y x ch, y < s.srcH.toNat → x < s.srcW.toNat → ch < cfgDepth s.srcCfg →
          dstAt t s.srcW.toNat (cfgDepth s.srcCfg) y x ch
            = srcAt s (s.srcH.toNat - 1 - y) (s.srcW.toNat - 1 - x) ch)

/-- 45 R164, R165, R169: `hor_flip` reverses the columns, `vert_flip` the rows. -/
def Obligations.FlipResults : Prop :=
  ∀ s : State, sourceOk s = true →
    s.srcH.toNat * s.srcW.toNat * cfgDepth s.srcCfg ≤ s.config.params.dstCap →
    (∃ t, exec .horFlip s = .next t
      ∧ Completed s t s.srcH.toNat s.srcW.toNat (cfgDepth s.srcCfg) (cfgFormat s.srcCfg) (cfgOrder s.srcCfg)
      ∧ ∀ y x ch, y < s.srcH.toNat → x < s.srcW.toNat → ch < cfgDepth s.srcCfg →
          dstAt t s.srcW.toNat (cfgDepth s.srcCfg) y x ch = srcAt s y (s.srcW.toNat - 1 - x) ch)
    ∧ (∃ t, exec .vertFlip s = .next t
      ∧ Completed s t s.srcH.toNat s.srcW.toNat (cfgDepth s.srcCfg) (cfgFormat s.srcCfg) (cfgOrder s.srcCfg)
      ∧ ∀ y x ch, y < s.srcH.toNat → x < s.srcW.toNat → ch < cfgDepth s.srcCfg →
          dstAt t s.srcW.toNat (cfgDepth s.srcCfg) y x ch = srcAt s (s.srcH.toNat - 1 - y) x ch)

/-- 45 R166: `downscale` keeps the even rows and columns, the last of an odd size included. -/
def Obligations.DownscaleResult : Prop :=
  ∀ s : State, sourceOk s = true →
    (s.srcH.toNat + 1) / 2 * ((s.srcW.toNat + 1) / 2) * cfgDepth s.srcCfg ≤ s.config.params.dstCap →
    ∃ t, exec .downscale s = .next t
      ∧ Completed s t ((s.srcH.toNat + 1) / 2) ((s.srcW.toNat + 1) / 2) (cfgDepth s.srcCfg) (cfgFormat s.srcCfg)
          (cfgOrder s.srcCfg)
      ∧ ∀ y x ch, 2 * y < s.srcH.toNat → 2 * x < s.srcW.toNat → ch < cfgDepth s.srcCfg →
          dstAt t ((s.srcW.toNat + 1) / 2) (cfgDepth s.srcCfg) y x ch = srcAt s (2 * y) (2 * x) ch

/-- 45 R167: `negate` replaces every value `v` by `255 − v`, exactly, in both formats. -/
def Obligations.NegateResult : Prop :=
  ∀ s : State, sourceOk s = true →
    s.srcH.toNat * s.srcW.toNat * cfgDepth s.srcCfg ≤ s.config.params.dstCap →
    ∃ t, exec .negate s = .next t
      ∧ Completed s t s.srcH.toNat s.srcW.toNat (cfgDepth s.srcCfg) (cfgFormat s.srcCfg) (cfgOrder s.srcCfg)
      ∧ ∀ y x ch, y < s.srcH.toNat → x < s.srcW.toNat → ch < cfgDepth s.srcCfg →
          ((dstAt t s.srcW.toNat (cfgDepth s.srcCfg) y x ch : Nat) : ℚ) / ((cfgFormat s.srcCfg).scale : ℚ)
            = 255 - (srcAt s y x ch : ℚ) / ((cfgFormat s.srcCfg).scale : ℚ)

/-- 45 R168 (a) to (e): the laws of the transform set, and that every size involved is at most the source's. -/
def Obligations.GeometricLaws : Prop :=
  ∀ S : Buffer, S.wellFormed = true →
    rot90 (rot90 (rot90 (rot90 S))) = S
    ∧ rotm90 (rot90 S) = S ∧ rot90 (rotm90 S) = S
    ∧ rot180 S = rot90 (rot90 S)
    ∧ negate (negate S) = S
    ∧ horFlip (horFlip S) = S ∧ vertFlip (vertFlip S) = S
    ∧ rot180 S = horFlip (vertFlip S) ∧ rot180 S = vertFlip (horFlip S)
    ∧ rot90 S = horFlip (transpose S)
    ∧ (rot90 S).size ≤ S.size ∧ (rotm90 S).size ≤ S.size ∧ (rot180 S).size ≤ S.size ∧ (horFlip S).size ≤ S.size
    ∧ (vertFlip S).size ≤ S.size ∧ (negate S).size ≤ S.size ∧ (downscale S).size ≤ S.size

/-! ## The machine as a whole -/

/-- The invariant holds after reset, and the reference capacity lets the registers hold every shape. -/
def Obligations.ResetMeetsInvariant : Prop :=
  Inv State.reset ∧ RegistersHoldShapes State.reset

/-- Every step keeps the invariant: STATUS legal with at most one of BUSY, DONE, ERR and an error code exactly with ERR
(10_state R24, R25), the destination empty or a well-formed result (R32, 20_memory R67), both memories canonical and
inside their capacities. -/
def Obligations.StepKeepsInvariant : Prop :=
  ∀ s t : State, RegistersHoldShapes s → Inv s → step s = .next t → Inv t ∧ RegistersHoldShapes t

/-- Every run is safe: from any state that meets the invariant the machine goes on for ever and keeps it. -/
def Obligations.EveryRunIsSafe : Prop :=
  ∀ s : State, RegistersHoldShapes s → Inv s → SafeRun s

/-- The parameters are constants of the instance (10_state R20, R37, R38, 70 R210): no step changes them. -/
def Obligations.ParametersNeverChange : Prop :=
  ∀ s t : State, step s = .next t → t.config = s.config

/-- 10_state R25, R36: an operation's result depends on the parameters and the source buffer value only: two states that
agree on those get the same error, or the same destination descriptor and result words, whatever their flags, their
destinations, and their words of `SRC` at or above the size. -/
def Obligations.ResultDependsOnSourceOnly : Prop :=
  ∀ (i : Instr) (s s' t t' : State), i.wellFormed = true → SameSource s s' →
    s.status.getLsbD 2 = false → s'.status.getLsbD 2 = false →
    exec i s = .next t → exec i s' = .next t' →
    t'.status.getLsbD 2 = t.status.getLsbD 2
    ∧ (t.status.getLsbD 2 = true → ecodeField t'.status = ecodeField t.status)
    ∧ (t.status.getLsbD 2 = false →
        t'.dstH = t.dstH ∧ t'.dstW = t.dstW ∧ t'.dstCfg = t.dstCfg
        ∧ ∀ k, k < resultSizeIn i s → dstWord t' k = dstWord t k)

/-- 20_memory R52, R69 (c), 10_state R23: any host transactions between START and COMPLETE, `Reset` apart, leave the engine
busy with the same command and source and the previous result in place, and COMPLETE then gives what it would have given
at once, but for `WBUSY` and what the last transaction returned. -/
def Obligations.TransactionsWhileBusyDoNotMatter : Prop :=
  ∀ (s : State) (ts : List Transaction), isBusy s = true → Transaction.reset ∉ ts →
    ∃ t t', engineTurn s = .next t
      ∧ engineTurn (ts.foldl (fun u tr => perform tr u) s) = .next t'
      ∧ ts.foldl (fun u tr => perform tr u) s
          = { s with
              status := (ts.foldl (fun u tr => perform tr u) s).status
              response := (ts.foldl (fun u tr => perform tr u) s).response }
      ∧ isBusy (ts.foldl (fun u tr => perform tr u) s) = true
      ∧ t' = { t with status := t'.status, response := t'.response }
      ∧ ∀ j, j ≠ 3 → t'.status.getLsbD j = t.status.getLsbD j

/-- 20_memory R68, progress: once its schedule is exhausted a busy engine completes; after as many steps as there are
scheduled events, and one more, the CORE is idle. That an exhausted schedule gives the engine its turn is the model's
choice (log 4). -/
def Obligations.EngineEventuallyCompletes : Prop :=
  ∀ s : State, ∃ t, Host.Core.run core (s.schedule.length + 1) s = .next t ∧ isBusy t = false ∧ t.schedule = []

/-- 30_encoding R90, `copyback`: on an idle CORE whose result fits the source memory, the script line makes the last
result the next source and leaves the destination as it was. -/
def Obligations.CopybackMakesResultTheSource : Prop :=
  ∀ s : State, isBusy s = false → DestinationHolds s → (destBuffer s).size ≤ s.config.params.srcCap →
    ∃ t, runScript [.copyback] s = some t
      ∧ sourceBuffer t = destBuffer s ∧ destBuffer t = destBuffer s
      ∧ t.cmd = s.cmd ∧ t.status = s.status ∧ t.dst = s.dst
end

