-- ==== Sys2Proof/Laws/Arith.lean ====
section
/-! SUPPORT. What the arithmetic of 00_scope section 5.1 computes: the Euclidean division, the bounds of rounding and
the range of clipping. -/

namespace Sys2Proof.Machine

theorem modulo_eq_emod (a : Int) (n : Nat) : modulo a n = a % (n : Int) := by
  unfold modulo floorDiv
  have := Int.mul_ediv_add_emod a n
  linarith [Int.mul_comm (n : Int) (a / n)]

theorem modulo_nonneg (a : Int) (n : Nat) (h : 0 < n) : 0 ≤ modulo a n := by
  rw [modulo_eq_emod]
  exact Int.emod_nonneg _ (by omega)

theorem modulo_lt (a : Int) (n : Nat) (h : 0 < n) : modulo a n < n := by
  rw [modulo_eq_emod]
  exact Int.emod_lt_of_pos _ (by omega)

theorem modulo_natCast (a n : Nat) (h : a < n) : modulo (a : Int) n = a := by
  rw [modulo_eq_emod]
  exact Int.emod_eq_of_lt (by omega) (by omega)

/-- `N = (N div D) · D + N mod D`. -/
theorem floorDiv_mul_add_modulo (N : Int) (D : Nat) : floorDiv N D * D + modulo N D = N := by
  unfold modulo
  ring

theorem floorDiv_mul (a : Int) (D : Nat) (h : 0 < D) : floorDiv (a * D) D = a := by
  unfold floorDiv
  exact Int.mul_ediv_cancel a (by omega)

theorem roundTie_cases (tie : Tie) (n : Int) : roundTie tie n = n ∨ roundTie tie n = n + 1 := by
  cases tie
  · unfold roundTie
    dsimp only
    split
    · exact Or.inl rfl
    · exact Or.inr rfl
  · exact Or.inr rfl

/-- `rnd` answers the floor or its successor, and the floor whenever the remainder is 0. -/
theorem rnd_cases (tie : Tie) (N : Int) (D : Nat) (h : 0 < D) :
    rnd tie N D = floorDiv N D ∨ (0 < modulo N D ∧ rnd tie N D = floorDiv N D + 1) := by
  have h0 := modulo_nonneg N D h
  unfold rnd
  dsimp only
  split
  · exact Or.inl rfl
  · split
    · exact Or.inr ⟨by omega, rfl⟩
    · rcases roundTie_cases tie (floorDiv N D) with ht | ht
      · exact Or.inl ht
      · exact Or.inr ⟨by omega, ht⟩

/-- Rounding an integer gives it back, under either tie rule. -/
theorem rnd_mul (tie : Tie) (a : Int) (D : Nat) (h : 0 < D) : rnd tie (a * D) D = a := by
  have hf := floorDiv_mul a D h
  rcases rnd_cases tie (a * D) D h with hr | ⟨hm, _⟩
  · rw [hr, hf]
  · have := floorDiv_mul_add_modulo (a * D) D
    rw [hf] at this
    omega

theorem le_floorDiv (N a : Int) (D : Nat) (h : 0 < D) (ha : a * D ≤ N) : a ≤ floorDiv N D :=
  (Int.le_ediv_iff_mul_le (by omega)).2 ha

theorem floorDiv_le (N b : Int) (D : Nat) (h : 0 < D) (hb : N ≤ b * D) : floorDiv N D ≤ b := by
  have hD : (0 : Int) < D := by omega
  have h0 := modulo_nonneg N D h
  have he := floorDiv_mul_add_modulo N D
  by_contra hc
  have : (b + 1) * (D : Int) ≤ floorDiv N D * D := Int.mul_le_mul_of_nonneg_right (by omega) hD.le
  nlinarith

/-- Rounding a number between two integers stays between them (42 R114 (a)). -/
theorem rnd_bounds (tie : Tie) (N a b : Int) (D : Nat) (h : 0 < D) (ha : a * D ≤ N) (hb : N ≤ b * D) :
    a ≤ rnd tie N D ∧ rnd tie N D ≤ b := by
  have hD : (0 : Int) < D := by omega
  have h1 := le_floorDiv N a D h ha
  have h2 := floorDiv_le N b D h hb
  rcases rnd_cases tie N D h with hr | ⟨hm, hr⟩
  · omega
  · have he := floorDiv_mul_add_modulo N D
    have hlt : floorDiv N D < b := by
      rcases lt_or_eq_of_le h2 with hlt | heq
      · exact hlt
      · rw [heq] at he
        omega
    omega

/-- A clipped value is a legal `U8` raw (00_scope R11). -/
theorem clip_le (n : Int) : clip n ≤ 255 := by
  unfold clip
  split
  · omega
  · split <;> omega

theorem clip_of_mem (n : Int) (h0 : 0 ≤ n) (h : n ≤ 255) : (clip n : Int) = n := by
  unfold clip
  rw [if_neg (by omega), if_neg (by omega)]
  omega

end Sys2Proof.Machine
end

