-- ==== Sys2Proof/Laws/Buffer.lean ====
section
/-! SUPPORT. The laws of buffer values (00_scope R14) and of the source and destination buffer values of a state
(10_state R36). -/

namespace Sys2Proof.Machine

@[simp] theorem tabulate_h (h w d : Nat) (fmt : Format) (chord : ChannelOrder) (f : Nat → Nat → Nat → Nat) :
    (Buffer.tabulate h w d fmt chord f).h = h := rfl
@[simp] theorem tabulate_w (h w d : Nat) (fmt : Format) (chord : ChannelOrder) (f : Nat → Nat → Nat → Nat) :
    (Buffer.tabulate h w d fmt chord f).w = w := rfl
@[simp] theorem tabulate_d (h w d : Nat) (fmt : Format) (chord : ChannelOrder) (f : Nat → Nat → Nat → Nat) :
    (Buffer.tabulate h w d fmt chord f).d = d := rfl
@[simp] theorem tabulate_fmt (h w d : Nat) (fmt : Format) (chord : ChannelOrder) (f : Nat → Nat → Nat → Nat) :
    (Buffer.tabulate h w d fmt chord f).fmt = fmt := rfl
@[simp] theorem tabulate_chord (h w d : Nat) (fmt : Format) (chord : ChannelOrder) (f : Nat → Nat → Nat → Nat) :
    (Buffer.tabulate h w d fmt chord f).chord = chord := rfl
@[simp] theorem tabulate_raw_length (h w d : Nat) (fmt : Format) (chord : ChannelOrder)
    (f : Nat → Nat → Nat → Nat) : (Buffer.tabulate h w d fmt chord f).raw.length = h * w * d := by
  simp [Buffer.tabulate]

/-- A sample's index lies inside the buffer. -/
theorem sampleIndex_lt {h w d y x c : Nat} (hy : y < h) (hx : x < w) (hc : c < d) :
    sampleIndex w d y x c < h * w * d := by
  unfold sampleIndex
  calc (y * w + x) * d + c < (y * w + x) * d + d := by omega
    _ = (y * w + x + 1) * d := by ring
    _ ≤ (y * w + w) * d := Nat.mul_le_mul_right _ (by omega)
    _ = (y + 1) * w * d := by ring
    _ ≤ h * w * d := Nat.mul_le_mul_right _ (Nat.mul_le_mul_right _ (by omega))

/-- The row, column and channel of a sample are read back from its index. -/
theorem sampleIndex_row {w d y x c : Nat} (hx : x < w) (hc : c < d) : sampleIndex w d y x c / (w * d) = y := by
  unfold sampleIndex
  rw [Nat.mul_comm w d, ← Nat.div_div_eq_div_mul, Nat.mul_comm _ d, Nat.mul_add_div (by omega),
    Nat.div_eq_of_lt hc, Nat.add_zero, Nat.mul_comm, Nat.mul_add_div (by omega), Nat.div_eq_of_lt hx, Nat.add_zero]

theorem sampleIndex_column {w d y x c : Nat} (hx : x < w) (hc : c < d) : sampleIndex w d y x c / d % w = x := by
  unfold sampleIndex
  rw [Nat.mul_comm _ d, Nat.mul_add_div (by omega), Nat.div_eq_of_lt hc, Nat.add_zero, Nat.mul_comm,
    Nat.mul_add_mod, Nat.mod_eq_of_lt hx]

theorem sampleIndex_channel {w d y x c : Nat} (hc : c < d) : sampleIndex w d y x c % d = c := by
  unfold sampleIndex
  rw [Nat.mul_comm, Nat.mul_add_mod, Nat.mod_eq_of_lt hc]

/-- Every index inside a buffer is the index of one sample. -/
theorem exists_sampleIndex {h w d k : Nat} (hk : k < h * w * d) :
    ∃ y x c, y < h ∧ x < w ∧ c < d ∧ k = sampleIndex w d y x c := by
  have hd : 0 < d := by
    rcases Nat.eq_zero_or_pos d with rfl | hd
    · simp at hk
    · exact hd
  have hkd : k / d < h * w := Nat.div_lt_of_lt_mul (by rwa [Nat.mul_comm])
  have hw : 0 < w := by
    rcases Nat.eq_zero_or_pos w with rfl | hw
    · simp at hkd
    · exact hw
  refine ⟨k / d / w, k / d % w, k % d, Nat.div_lt_of_lt_mul (by rwa [Nat.mul_comm]), Nat.mod_lt _ hw,
    Nat.mod_lt _ hd, ?_⟩
  unfold sampleIndex
  have h1 : k / d / w * w + k / d % w = k / d := by
    rw [Nat.mul_comm]
    exact Nat.div_add_mod _ _
  rw [h1, Nat.mul_comm]
  exact (Nat.div_add_mod _ _).symm

/-- The raw samples of a tabulated buffer, by index. -/
theorem tabulate_getElem {h w d : Nat} {fmt : Format} {chord : ChannelOrder} {f : Nat → Nat → Nat → Nat}
    {y x c : Nat} (hy : y < h) (hx : x < w) (hc : c < d) :
    (Buffer.tabulate h w d fmt chord f).raw[sampleIndex w d y x c]? = some (f y x c) := by
  unfold Buffer.tabulate
  rw [List.getElem?_map, List.getElem?_range (sampleIndex_lt hy hx hc), Option.map_some, sampleIndex_row hx hc,
    sampleIndex_column hx hc, sampleIndex_channel hc]

/-- A sample of a tabulated buffer. -/
theorem tabulate_sample {h w d : Nat} {fmt : Format} {chord : ChannelOrder} {f : Nat → Nat → Nat → Nat}
    {y x c : Nat} (hy : y < h) (hx : x < w) (hc : c < d) :
    (Buffer.tabulate h w d fmt chord f).sample y x c = f y x c := by
  unfold Buffer.sample
  rw [tabulate_w, tabulate_d, List.getD_eq_getElem?_getD, tabulate_getElem hy hx hc]
  rfl

/-- Every raw sample of a tabulated buffer is a value of the function at a position inside the buffer. -/
theorem tabulate_raw_mem {h w d : Nat} {fmt : Format} {chord : ChannelOrder} {f : Nat → Nat → Nat → Nat} {r : Nat}
    (hr : r ∈ (Buffer.tabulate h w d fmt chord f).raw) : ∃ y x c, y < h ∧ x < w ∧ c < d ∧ r = f y x c := by
  unfold Buffer.tabulate at hr
  obtain ⟨k, hk, rfl⟩ := List.mem_map.1 hr
  obtain ⟨y, x, c, hy, hx, hc, rfl⟩ := exists_sampleIndex (List.mem_range.1 hk)
  exact ⟨y, x, c, hy, hx, hc, by rw [sampleIndex_row hx hc, sampleIndex_column hx hc, sampleIndex_channel hc]⟩

/-- Two buffers with the same descriptor and the same samples are equal. -/
theorem Buffer.ext_samples {A B : Buffer} (hh : A.h = B.h) (hw : A.w = B.w) (hd : A.d = B.d) (hf : A.fmt = B.fmt)
    (hc : A.chord = B.chord) (hA : A.raw.length = A.size) (hB : B.raw.length = B.size)
    (hs : ∀ y x c, y < A.h → x < A.w → c < A.d → A.sample y x c = B.sample y x c) : A = B := by
  obtain ⟨h, w, d, fmt, chord, raw⟩ := A
  obtain ⟨h', w', d', fmt', chord', raw'⟩ := B
  dsimp only at hh hw hd hf hc
  subst hh hw hd hf hc
  dsimp only [Buffer.size] at hA hB
  congr 1
  refine List.ext_getElem (hA.trans hB.symm) fun k hk hk' => ?_
  obtain ⟨y, x, c, hy, hx, hc, rfl⟩ := exists_sampleIndex (hA ▸ hk)
  have := hs y x c hy hx hc
  unfold Buffer.sample at this
  dsimp only at this
  rw [List.getD_eq_getElem?_getD, List.getD_eq_getElem?_getD, List.getElem?_eq_getElem hk,
    List.getElem?_eq_getElem hk'] at this
  simpa using this

/-- What `Buffer.wellFormed` says. -/
theorem wellFormed_iff (B : Buffer) : B.wellFormed = true ↔
    (B.d = 1 ∨ B.d = 3) ∧ 1 ≤ B.h ∧ 1 ≤ B.w ∧ ¬(B.fmt = .ym ∧ B.d = 3) ∧ B.raw.length = B.size
      ∧ ∀ r ∈ B.raw, r ≤ 255 * B.fmt.scale := by
  simp [Buffer.wellFormed, and_assoc, imp_iff_not_or]

/-- A sample inside a buffer is one of its raw samples. -/
theorem sample_mem {B : Buffer} (hB : B.raw.length = B.size) {y x c : Nat} (hy : y < B.h) (hx : x < B.w)
    (hc : c < B.d) : B.sample y x c ∈ B.raw := by
  have hlt : sampleIndex B.w B.d y x c < B.raw.length := hB ▸ sampleIndex_lt hy hx hc
  unfold Buffer.sample
  rw [List.getD_eq_getElem?_getD, List.getElem?_eq_getElem hlt]
  exact List.getElem_mem hlt

theorem sample_le {B : Buffer} (hB : B.wellFormed = true) {y x c : Nat} (hy : y < B.h) (hx : x < B.w)
    (hc : c < B.d) : B.sample y x c ≤ 255 * B.fmt.scale :=
  have h := (wellFormed_iff B).1 hB
  h.2.2.2.2.2 _ (sample_mem h.2.2.2.2.1 hy hx hc)

/-- A tabulated buffer is well formed when its shape is legal and its function stays in range. -/
theorem tabulate_wellFormed {h w d : Nat} {fmt : Format} {chord : ChannelOrder} {f : Nat → Nat → Nat → Nat}
    (hd : d = 1 ∨ d = 3) (hh : 1 ≤ h) (hw : 1 ≤ w) (hf : ¬(fmt = .ym ∧ d = 3))
    (hr : ∀ y x c, y < h → x < w → c < d → f y x c ≤ 255 * fmt.scale) :
    (Buffer.tabulate h w d fmt chord f).wellFormed = true := by
  refine (wellFormed_iff _).2 ⟨hd, hh, hw, hf, tabulate_raw_length .., fun r hr' => ?_⟩
  obtain ⟨y, x, c, hy, hx, hc, rfl⟩ := tabulate_raw_mem hr'
  exact hr y x c hy hx hc

/-- Tests (1) to (5) of 20_memory R62. -/
theorem descriptorOk_iff (s : State) : descriptorOk s = true ↔
    cfgReserved s.srcCfg = 0 ∧ (cfgDepth s.srcCfg = 1 ∨ cfgDepth s.srcCfg = 3) ∧ 1 ≤ s.srcH.toNat
      ∧ 1 ≤ s.srcW.toNat ∧ ¬(cfgFormat s.srcCfg = .ym ∧ cfgDepth s.srcCfg = 3)
      ∧ sourceSize s ≤ s.config.params.srcCap := by
  simp [descriptorOk, and_assoc, imp_iff_not_or]

/-- Test (6) of 20_memory R62. -/
theorem samplesOk_iff (s : State) : samplesOk s = true ↔
    ∀ k < sourceSize s, (srcWord s k).toNat ≤ 255 * (cfgFormat s.srcCfg).scale := by
  simp [samplesOk]

@[simp] theorem sourceBuffer_h (s : State) : (sourceBuffer s).h = s.srcH.toNat := rfl
@[simp] theorem sourceBuffer_w (s : State) : (sourceBuffer s).w = s.srcW.toNat := rfl
@[simp] theorem sourceBuffer_d (s : State) : (sourceBuffer s).d = cfgDepth s.srcCfg := rfl
@[simp] theorem sourceBuffer_fmt (s : State) : (sourceBuffer s).fmt = cfgFormat s.srcCfg := rfl
@[simp] theorem sourceBuffer_chord (s : State) : (sourceBuffer s).chord = cfgOrder s.srcCfg := rfl

theorem sourceBuffer_raw_length (s : State) : (sourceBuffer s).raw.length = (sourceBuffer s).size := by
  simp [sourceBuffer, Buffer.size, sourceSize]

/-- A sample of the source buffer value is the word at its index (20_memory R65). -/
theorem sourceBuffer_sample (s : State) {y x c : Nat} (hy : y < s.srcH.toNat) (hx : x < s.srcW.toNat)
    (hc : c < cfgDepth s.srcCfg) :
    (sourceBuffer s).sample y x c = (srcWord s (sampleIndex s.srcW.toNat (cfgDepth s.srcCfg) y x c)).toNat := by
  unfold Buffer.sample sourceBuffer
  dsimp only
  rw [List.getD_eq_getElem?_getD, List.getElem?_map,
    List.getElem?_range (show _ < sourceSize s from sampleIndex_lt hy hx hc)]
  rfl

theorem sourceBuffer_raw_getElem (s : State) {k : Nat} (hk : k < sourceSize s) :
    (sourceBuffer s).raw[k]? = some (srcWord s k).toNat := by
  unfold sourceBuffer
  dsimp only
  rw [List.getElem?_map, List.getElem?_range hk]
  rfl

theorem mem_sourceBuffer_raw (s : State) (r : Nat) :
    r ∈ (sourceBuffer s).raw ↔ ∃ k < sourceSize s, r = (srcWord s k).toNat := by
  simp [sourceBuffer, eq_comm]

/-- A source that passes the check is a well-formed buffer value. -/
theorem sourceBuffer_wellFormed (s : State) (h : sourceOk s = true) : (sourceBuffer s).wellFormed = true := by
  unfold sourceOk at h
  rw [Bool.and_eq_true] at h
  obtain ⟨_, hd, hh, hw, hf, _⟩ := (descriptorOk_iff s).1 h.1
  refine (wellFormed_iff _).2 ⟨hd, hh, hw, hf, sourceBuffer_raw_length s, fun r hr => ?_⟩
  obtain ⟨k, hk, rfl⟩ := (mem_sourceBuffer_raw s r).1 hr
  exact (samplesOk_iff s).1 h.2 k hk

/-- The fields of the configuration word that COMPLETE writes (20_memory R66). -/
theorem cfgOf_fields : ∀ d < 4, ∀ fmt : Format, ∀ chord : ChannelOrder,
    cfgDepth (cfgOf d fmt chord) = d ∧ cfgFormat (cfgOf d fmt chord) = fmt
      ∧ cfgOrder (cfgOf d fmt chord) = chord ∧ cfgReserved (cfgOf d fmt chord) = 0 := by
  intro d hd fmt chord
  revert d
  cases fmt <;> cases chord <;> decide

end Sys2Proof.Machine
end

