-- ==== Sys2Proof/Laws/Flags.lean ====
section
/-! SUPPORT. The fields of STATUS after each update (10_state R24, 20_memory R53, R66, 60_exceptions R188). -/

namespace Sys2Proof.Machine

theorem statusBit_ge (j : Nat) (st : Word) (h : 32 ≤ j) : statusBit j st = false :=
  BitVec.getLsbD_of_ge st j h

/-- Two STATUS words with equal bits are equal. -/
theorem status_ext {a b : Word} (h : ∀ j < 32, statusBit j a = statusBit j b) : a = b :=
  BitVec.eq_of_getLsbD_eq fun j hj => h j hj

theorem statusBit_withStatusBit (i j : Nat) (b : Bool) (st : Word) (hi : i < 32) :
    statusBit j (withStatusBit i b st) = if j = i then b else statusBit j st := by
  by_cases hj : j < 32
  · unfold statusBit withStatusBit
    by_cases hji : j = i
    · subst hji
      cases b <;> simp [hj]
    · cases b <;> simp [hj, hji]
  · rw [statusBit_ge _ _ (by omega), statusBit_ge _ _ (by omega), if_neg (by omega)]

theorem ecodeMask_bit : ∀ j < 32, (0x00000700#32).getLsbD j = decide (8 ≤ j ∧ j ≤ 10) := by decide

theorem ecodeValue_bit : ∀ c < 8, ∀ j < 32,
    (zext32 (c * 256)).getLsbD j = (decide (8 ≤ j ∧ j ≤ 10) && c.testBit (j - 8)) := by decide

theorem statusBit_withEcode (j c : Nat) (st : Word) :
    statusBit j (withEcode c st)
      = if 8 ≤ j ∧ j ≤ 10 then (c % 8).testBit (j - 8) else statusBit j st := by
  by_cases hj : j < 32
  · unfold statusBit withEcode
    simp only [BitVec.getLsbD_or, BitVec.getLsbD_and, BitVec.getLsbD_not, hj, decide_true, Bool.true_and,
      ecodeMask_bit j hj, ecodeValue_bit (c % 8) (Nat.mod_lt _ (by omega)) j hj]
    by_cases hr : 8 ≤ j ∧ j ≤ 10
    · simp [hr]
    · rw [if_neg hr, decide_eq_false hr]
      simp
  · rw [statusBit_ge _ _ (by omega), statusBit_ge _ _ (by omega), if_neg (by omega)]

/-- `ECODE` as its three bits. -/
theorem ecodeField_bits (st : Word) :
    ecodeField st = (statusBit 8 st).toNat + 2 * (statusBit 9 st).toNat + 4 * (statusBit 10 st).toNat := by
  have hbit : ∀ j, (statusBit j st).toNat = st.toNat / 2 ^ j % 2 := by
    intro j
    unfold statusBit
    rw [← BitVec.testBit_toNat, Nat.toNat_testBit]
  rw [hbit, hbit, hbit]
  unfold ecodeField bits
  omega

theorem ecodeField_congr {a b : Word} (h : ∀ j, 8 ≤ j → j ≤ 10 → statusBit j a = statusBit j b) :
    ecodeField a = ecodeField b := by
  rw [ecodeField_bits, ecodeField_bits, h 8 (by omega) (by omega), h 9 (by omega) (by omega),
    h 10 (by omega) (by omega)]

theorem ecodeField_withStatusBit (i : Nat) (b : Bool) (st : Word) (hi : i < 8) :
    ecodeField (withStatusBit i b st) = ecodeField st :=
  ecodeField_congr fun j h8 _ => by rw [statusBit_withStatusBit _ _ _ _ (by omega), if_neg (by omega)]

@[simp] theorem ecodeField_withEcode (c : Nat) (st : Word) : ecodeField (withEcode c st) = c % 8 := by
  rw [ecodeField_bits, statusBit_withEcode, statusBit_withEcode, statusBit_withEcode, if_pos (by omega),
    if_pos (by omega), if_pos (by omega)]
  have h : c % 8 < 8 := Nat.mod_lt _ (by omega)
  generalize c % 8 = d at h
  revert d
  decide

theorem ErrorKind.code_lt (e : ErrorKind) : e.code < 8 := by cases e <;> decide

theorem ErrorKind.code_pos (e : ErrorKind) : 0 < e.code := by cases e <;> decide

@[simp] theorem busyFlag_withBusy (b : Bool) (st : Word) : busyFlag (withBusy b st) = b := by
  unfold busyFlag withBusy
  rw [statusBit_withStatusBit _ _ _ _ (by omega)]
  rfl

@[simp] theorem doneFlag_withBusy (b : Bool) (st : Word) : doneFlag (withBusy b st) = doneFlag st := by
  unfold doneFlag withBusy
  rw [statusBit_withStatusBit _ _ _ _ (by omega)]
  rfl

@[simp] theorem errFlag_withBusy (b : Bool) (st : Word) : errFlag (withBusy b st) = errFlag st := by
  unfold errFlag withBusy
  rw [statusBit_withStatusBit _ _ _ _ (by omega)]
  rfl

@[simp] theorem wbusyFlag_withBusy (b : Bool) (st : Word) : wbusyFlag (withBusy b st) = wbusyFlag st := by
  unfold wbusyFlag withBusy
  rw [statusBit_withStatusBit _ _ _ _ (by omega)]
  rfl

@[simp] theorem ecodeField_withBusy (b : Bool) (st : Word) : ecodeField (withBusy b st) = ecodeField st :=
  ecodeField_withStatusBit _ _ _ (by omega)

@[simp] theorem busyFlag_withDone (b : Bool) (st : Word) : busyFlag (withDone b st) = busyFlag st := by
  unfold busyFlag withDone
  rw [statusBit_withStatusBit _ _ _ _ (by omega)]
  rfl

@[simp] theorem doneFlag_withDone (b : Bool) (st : Word) : doneFlag (withDone b st) = b := by
  unfold doneFlag withDone
  rw [statusBit_withStatusBit _ _ _ _ (by omega)]
  rfl

@[simp] theorem errFlag_withDone (b : Bool) (st : Word) : errFlag (withDone b st) = errFlag st := by
  unfold errFlag withDone
  rw [statusBit_withStatusBit _ _ _ _ (by omega)]
  rfl

@[simp] theorem wbusyFlag_withDone (b : Bool) (st : Word) : wbusyFlag (withDone b st) = wbusyFlag st := by
  unfold wbusyFlag withDone
  rw [statusBit_withStatusBit _ _ _ _ (by omega)]
  rfl

@[simp] theorem ecodeField_withDone (b : Bool) (st : Word) : ecodeField (withDone b st) = ecodeField st :=
  ecodeField_withStatusBit _ _ _ (by omega)

@[simp] theorem busyFlag_withErr (b : Bool) (st : Word) : busyFlag (withErr b st) = busyFlag st := by
  unfold busyFlag withErr
  rw [statusBit_withStatusBit _ _ _ _ (by omega)]
  rfl

@[simp] theorem doneFlag_withErr (b : Bool) (st : Word) : doneFlag (withErr b st) = doneFlag st := by
  unfold doneFlag withErr
  rw [statusBit_withStatusBit _ _ _ _ (by omega)]
  rfl

@[simp] theorem errFlag_withErr (b : Bool) (st : Word) : errFlag (withErr b st) = b := by
  unfold errFlag withErr
  rw [statusBit_withStatusBit _ _ _ _ (by omega)]
  rfl

@[simp] theorem wbusyFlag_withErr (b : Bool) (st : Word) : wbusyFlag (withErr b st) = wbusyFlag st := by
  unfold wbusyFlag withErr
  rw [statusBit_withStatusBit _ _ _ _ (by omega)]
  rfl

@[simp] theorem ecodeField_withErr (b : Bool) (st : Word) : ecodeField (withErr b st) = ecodeField st :=
  ecodeField_withStatusBit _ _ _ (by omega)

@[simp] theorem busyFlag_withWbusy (b : Bool) (st : Word) : busyFlag (withWbusy b st) = busyFlag st := by
  unfold busyFlag withWbusy
  rw [statusBit_withStatusBit _ _ _ _ (by omega)]
  rfl

@[simp] theorem doneFlag_withWbusy (b : Bool) (st : Word) : doneFlag (withWbusy b st) = doneFlag st := by
  unfold doneFlag withWbusy
  rw [statusBit_withStatusBit _ _ _ _ (by omega)]
  rfl

@[simp] theorem errFlag_withWbusy (b : Bool) (st : Word) : errFlag (withWbusy b st) = errFlag st := by
  unfold errFlag withWbusy
  rw [statusBit_withStatusBit _ _ _ _ (by omega)]
  rfl

@[simp] theorem wbusyFlag_withWbusy (b : Bool) (st : Word) : wbusyFlag (withWbusy b st) = b := by
  unfold wbusyFlag withWbusy
  rw [statusBit_withStatusBit _ _ _ _ (by omega)]
  rfl

@[simp] theorem ecodeField_withWbusy (b : Bool) (st : Word) : ecodeField (withWbusy b st) = ecodeField st :=
  ecodeField_withStatusBit _ _ _ (by omega)

@[simp] theorem busyFlag_withEcode (c : Nat) (st : Word) : busyFlag (withEcode c st) = busyFlag st := by
  unfold busyFlag
  rw [statusBit_withEcode, if_neg (by omega)]

@[simp] theorem doneFlag_withEcode (c : Nat) (st : Word) : doneFlag (withEcode c st) = doneFlag st := by
  unfold doneFlag
  rw [statusBit_withEcode, if_neg (by omega)]

@[simp] theorem errFlag_withEcode (c : Nat) (st : Word) : errFlag (withEcode c st) = errFlag st := by
  unfold errFlag
  rw [statusBit_withEcode, if_neg (by omega)]

@[simp] theorem wbusyFlag_withEcode (c : Nat) (st : Word) : wbusyFlag (withEcode c st) = wbusyFlag st := by
  unfold wbusyFlag
  rw [statusBit_withEcode, if_neg (by omega)]

@[simp] theorem busyFlag_startStatus (st : Word) : busyFlag (startStatus st) = true := by
  simp [startStatus]

@[simp] theorem doneFlag_startStatus (st : Word) : doneFlag (startStatus st) = false := by
  simp [startStatus]

@[simp] theorem errFlag_startStatus (st : Word) : errFlag (startStatus st) = false := by
  simp [startStatus]

@[simp] theorem wbusyFlag_startStatus (st : Word) : wbusyFlag (startStatus st) = wbusyFlag st := by
  simp [startStatus]

@[simp] theorem ecodeField_startStatus (st : Word) : ecodeField (startStatus st) = 0 := by
  simp [startStatus]

@[simp] theorem busyFlag_okStatus (st : Word) : busyFlag (okStatus st) = false := by
  simp [okStatus]

@[simp] theorem doneFlag_okStatus (st : Word) : doneFlag (okStatus st) = true := by
  simp [okStatus]

@[simp] theorem errFlag_okStatus (st : Word) : errFlag (okStatus st) = errFlag st := by
  simp [okStatus]

@[simp] theorem wbusyFlag_okStatus (st : Word) : wbusyFlag (okStatus st) = wbusyFlag st := by
  simp [okStatus]

@[simp] theorem ecodeField_okStatus (st : Word) : ecodeField (okStatus st) = ecodeField st := by
  simp [okStatus]

@[simp] theorem busyFlag_errStatus (e : ErrorKind) (st : Word) : busyFlag (errStatus e st) = false := by
  simp [errStatus]

@[simp] theorem doneFlag_errStatus (e : ErrorKind) (st : Word) : doneFlag (errStatus e st) = doneFlag st := by
  simp [errStatus]

@[simp] theorem errFlag_errStatus (e : ErrorKind) (st : Word) : errFlag (errStatus e st) = true := by
  simp [errStatus]

@[simp] theorem wbusyFlag_errStatus (e : ErrorKind) (st : Word) : wbusyFlag (errStatus e st) = wbusyFlag st := by
  simp [errStatus]

@[simp] theorem ecodeField_errStatus (e : ErrorKind) (st : Word) : ecodeField (errStatus e st) = e.code := by
  simp only [errStatus, ecodeField_withEcode]
  exact Nat.mod_eq_of_lt e.code_lt

/-- The bits of STATUS that START leaves alone: all but BUSY, DONE, ERR and ECODE. -/
theorem statusBit_startStatus (j : Nat) (st : Word) (h : 3 ≤ j) (h' : j < 8 ∨ 10 < j) :
    statusBit j (startStatus st) = statusBit j st := by
  unfold startStatus withErr withDone withBusy
  rw [statusBit_withEcode, if_neg (by omega), statusBit_withStatusBit _ _ _ _ (by omega), if_neg (by omega),
    statusBit_withStatusBit _ _ _ _ (by omega), if_neg (by omega), statusBit_withStatusBit _ _ _ _ (by omega),
    if_neg (by omega)]

/-- The bits of STATUS that an `Ok` COMPLETE leaves alone: all but BUSY and DONE. -/
theorem statusBit_okStatus (j : Nat) (st : Word) (h : 2 ≤ j) : statusBit j (okStatus st) = statusBit j st := by
  unfold okStatus withDone withBusy
  rw [statusBit_withStatusBit _ _ _ _ (by omega), if_neg (by omega), statusBit_withStatusBit _ _ _ _ (by omega),
    if_neg (by omega)]

/-- The bits of STATUS that error entry leaves alone: all but BUSY, ERR and ECODE. -/
theorem statusBit_errStatus (j : Nat) (e : ErrorKind) (st : Word) (h : j ≠ 0) (h' : j ≠ 2)
    (h'' : j < 8 ∨ 10 < j) : statusBit j (errStatus e st) = statusBit j st := by
  unfold errStatus withErr withBusy
  rw [statusBit_withEcode, if_neg (by omega), statusBit_withStatusBit _ _ _ _ (by omega), if_neg h',
    statusBit_withStatusBit _ _ _ _ (by omega), if_neg h]

theorem statusMask_bit : ∀ j < 32, statusMask.getLsbD j = decide (j ≤ 3 ∨ 8 ≤ j ∧ j ≤ 10) := by decide

/-- The reserved bits of STATUS are 0 (10_state R24). -/
theorem reserved_zero_iff (st : Word) :
    st &&& ~~~statusMask = 0 ↔ ∀ j, (4 ≤ j ∧ j < 8 ∨ 10 < j) → statusBit j st = false := by
  constructor
  · intro h j hj
    by_cases h32 : j < 32
    · have := congrArg (fun w => w.getLsbD j) h
      simp only [BitVec.getLsbD_and, BitVec.getLsbD_not, statusMask_bit j h32, h32, decide_true,
        Bool.true_and] at this
      have hz : (0 : Word).getLsbD j = false := by simp
      rw [hz] at this
      have hd : decide (j ≤ 3 ∨ 8 ≤ j ∧ j ≤ 10) = false := decide_eq_false (by omega)
      simpa [hd, statusBit] using this
    · exact statusBit_ge _ _ (by omega)
  · intro h
    refine BitVec.eq_of_getLsbD_eq fun j hj => ?_
    simp only [BitVec.getLsbD_and, BitVec.getLsbD_not, statusMask_bit j hj, hj, decide_true, Bool.true_and]
    by_cases hr : j ≤ 3 ∨ 8 ≤ j ∧ j ≤ 10
    · simp [hr]
    · have := h j (by omega)
      unfold statusBit at this
      simp [this]

end Sys2Proof.Machine
end

