-- ==== Sys2Proof/Laws/Memory.lean ====
section
/-! SUPPORT. The laws of a memory: what a write does to every word, and that the canonical form is kept. -/

namespace Sys2Proof.Machine

@[simp] theorem Memory.find_nil (a : Nat) : Memory.find a [] = none := rfl

theorem Memory.find_cons (a b : Nat) (w : Word) (m : Memory) :
    Memory.find a ((b, w) :: m) = if a = b then some w else Memory.find a m := rfl

/-- One write, seen at every address. -/
theorem Memory.find_write (a b : Nat) (v : Word) (m : Memory) :
    Memory.find b (Memory.write a v m) = if b = a then some v else Memory.find b m := by
  induction m with
  | nil => simp [Memory.write, Memory.find_cons]
  | cons c m ih =>
    obtain ⟨x, w⟩ := c
    simp only [Memory.write]
    split
    · simp only [Memory.find_cons]
    · split
      · subst x
        simp only [Memory.find_cons]
        split <;> rfl
      · simp only [Memory.find_cons, ih]
        split <;> split <;> first | rfl | omega

/-- A run of writes, seen at every address: words inside the run are the run's, all others are kept. -/
theorem Memory.find_writeRun (vs : List Word) (a b : Nat) (m : Memory) :
    Memory.find b (Memory.writeRun a vs m)
      = if a ≤ b ∧ b < a + vs.length then vs[b - a]? else Memory.find b m := by
  induction vs generalizing a m with
  | nil =>
    simp only [Memory.writeRun, List.length_nil, Nat.add_zero]
    rw [if_neg (by omega)]
  | cons v vs ih =>
    simp only [Memory.writeRun, ih, Memory.find_write, List.length_cons]
    by_cases hb : b = a
    · subst hb
      rw [if_neg (by omega), if_pos rfl, if_pos (by omega), Nat.sub_self]
      rfl
    · by_cases hin : a ≤ b ∧ b < a + (vs.length + 1)
      · obtain ⟨k, rfl⟩ : ∃ k, b = a + 1 + k := ⟨b - (a + 1), by omega⟩
        rw [if_pos (by omega), if_pos hin, show a + 1 + k - (a + 1) = k by omega,
          show a + 1 + k - a = k + 1 by omega]
        rfl
      · rw [if_neg (by omega), if_neg hb, if_neg hin]

theorem Memory.find_writeRun_inside (vs : List Word) (b : Nat) (m : Memory) (h : b < vs.length) :
    Memory.find b (Memory.writeRun 0 vs m) = some vs[b] := by
  rw [Memory.find_writeRun, if_pos (by omega), Nat.sub_zero, List.getElem?_eq_getElem h]

theorem Memory.find_writeRun_outside (vs : List Word) (b : Nat) (m : Memory) (h : vs.length ≤ b) :
    Memory.find b (Memory.writeRun 0 vs m) = Memory.find b m := by
  rw [Memory.find_writeRun, if_neg (by omega)]

/-- Every listed address lies above `a`. -/
def Memory.above (a : Nat) (m : Memory) : Prop := ∀ c ∈ m, a < c.1

theorem Memory.wf_nil : Memory.wf [] = true := rfl

theorem Memory.wf_cons (c : Nat × Word) (m : Memory) :
    Memory.wf (c :: m) = true ↔ Memory.above c.1 m ∧ Memory.wf m = true := by
  simp [Memory.wf, Memory.above]

theorem Memory.mem_write {a : Nat} {v : Word} {m : Memory} {c : Nat × Word} (h : c ∈ Memory.write a v m) :
    c = (a, v) ∨ c ∈ m := by
  induction m with
  | nil => exact Or.inl (by simpa [Memory.write] using h)
  | cons d m ih =>
    obtain ⟨x, w⟩ := d
    simp only [Memory.write] at h
    split at h
    · simpa using h
    · split at h
      · rcases List.mem_cons.1 h with h | h
        · exact Or.inl h
        · exact Or.inr (List.mem_cons_of_mem _ h)
      · rcases List.mem_cons.1 h with h | h
        · exact Or.inr (h ▸ List.mem_cons_self)
        · exact (ih h).imp id (List.mem_cons_of_mem _)

/-- A write keeps the canonical form. -/
theorem Memory.wf_write (a : Nat) (v : Word) (m : Memory) (h : m.wf = true) :
    (Memory.write a v m).wf = true := by
  induction m with
  | nil => rfl
  | cons c m ih =>
    obtain ⟨x, w⟩ := c
    obtain ⟨hx, hm⟩ := (Memory.wf_cons _ _).1 h
    simp only [Memory.write]
    split
    · rename_i hlt
      refine (Memory.wf_cons _ _).2 ⟨fun d hd => ?_, h⟩
      rcases List.mem_cons.1 hd with rfl | hd
      · exact hlt
      · exact hlt.trans (hx d hd)
    · split
      · rename_i heq
        subst heq
        exact (Memory.wf_cons _ _).2 ⟨hx, hm⟩
      · refine (Memory.wf_cons _ _).2 ⟨fun d hd => ?_, ih hm⟩
        rcases Memory.mem_write hd with rfl | hd
        · show x < a
          omega
        · exact hx d hd

theorem Memory.wf_writeRun (vs : List Word) (a : Nat) (m : Memory) (h : m.wf = true) :
    (Memory.writeRun a vs m).wf = true := by
  induction vs generalizing a m with
  | nil => exact h
  | cons v vs ih => exact ih _ _ (Memory.wf_write a v m h)

theorem Memory.within_iff (cap : Nat) (m : Memory) : m.within cap = true ↔ ∀ c ∈ m, c.1 < cap := by
  simp [Memory.within]

/-- A write below a capacity keeps a memory within it. -/
theorem Memory.within_write (cap a : Nat) (v : Word) (m : Memory) (ha : a < cap) (h : m.within cap = true) :
    (Memory.write a v m).within cap = true := by
  rw [Memory.within_iff] at h ⊢
  intro c hc
  rcases Memory.mem_write hc with rfl | hc
  · exact ha
  · exact h c hc

theorem Memory.within_writeRun (cap : Nat) (vs : List Word) (a : Nat) (m : Memory) (ha : a + vs.length ≤ cap)
    (h : m.within cap = true) : (Memory.writeRun a vs m).within cap = true := by
  induction vs generalizing a m with
  | nil => exact h
  | cons v vs ih =>
    simp only [List.length_cons] at ha
    exact ih _ _ (by omega) (Memory.within_write cap a v m (by omega) h)

end Sys2Proof.Machine
end

