-- ==== Sys2Proof/Laws/Results.lean ====
section
/-! SUPPORT. What each operation's function answers for a well-formed source: a well-formed buffer of the shape that
20_memory R67 gives. -/

namespace Sys2Proof.Machine

theorem foldl_min_le (l : List Nat) (a : Nat) : l.foldl min a ≤ a ∧ ∀ r ∈ l, l.foldl min a ≤ r := by
  induction l generalizing a with
  | nil => exact ⟨le_rfl, fun _ h => absurd h List.not_mem_nil⟩
  | cons b l ih =>
    obtain ⟨h1, h2⟩ := ih (min a b)
    refine ⟨h1.trans (min_le_left _ _), fun r hr => ?_⟩
    rcases List.mem_cons.1 hr with rfl | hr
    · exact h1.trans (min_le_right _ _)
    · exact h2 r hr

theorem le_foldl_max (l : List Nat) (a : Nat) : a ≤ l.foldl max a ∧ ∀ r ∈ l, r ≤ l.foldl max a := by
  induction l generalizing a with
  | nil => exact ⟨le_rfl, fun _ h => absurd h List.not_mem_nil⟩
  | cons b l ih =>
    obtain ⟨h1, h2⟩ := ih (max a b)
    refine ⟨(le_max_left _ _).trans h1, fun r hr => ?_⟩
    rcases List.mem_cons.1 hr with rfl | hr
    · exact (le_max_right _ _).trans h1
    · exact h2 r hr

theorem foldl_choice_mem (f : Nat → Nat → Nat) (hf : ∀ a b, f a b = a ∨ f a b = b) (l : List Nat) (a : Nat) :
    l.foldl f a = a ∨ l.foldl f a ∈ l := by
  induction l generalizing a with
  | nil => exact Or.inl rfl
  | cons b l ih =>
    simp only [List.foldl_cons]
    rcases ih (f a b) with h | h
    · rw [h]
      exact (hf a b).imp id fun h' => by rw [h']; exact List.mem_cons_self
    · exact Or.inr (List.mem_cons_of_mem _ h)

theorem foldl_head_mem (f : Nat → Nat → Nat) (hf : ∀ a b, f a b = a ∨ f a b = b) (l : List Nat) (h : l ≠ []) :
    l.foldl f (l.headD 0) ∈ l := by
  cases l with
  | nil => exact absurd rfl h
  | cons a l =>
    rcases foldl_choice_mem f hf (a :: l) a with h' | h'
    · rw [List.headD_cons, h']
      exact List.mem_cons_self
    · exact h'

/-- The least raw sample is below every raw sample (42 R111). -/
theorem rawMin_le {B : Buffer} {r : Nat} (h : r ∈ B.raw) : rawMin B ≤ r := (foldl_min_le _ _).2 r h

/-- The greatest raw sample is above every raw sample (42 R111). -/
theorem le_rawMax {B : Buffer} {r : Nat} (h : r ∈ B.raw) : r ≤ rawMax B := (le_foldl_max _ _).2 r h

theorem rawMin_mem {B : Buffer} (h : B.raw ≠ []) : rawMin B ∈ B.raw :=
  foldl_head_mem min (fun a b => by omega) _ h

theorem rawMax_mem {B : Buffer} (h : B.raw ≠ []) : rawMax B ∈ B.raw :=
  foldl_head_mem max (fun a b => by omega) _ h

/-- A well-formed buffer has a sample. -/
theorem wellFormed_raw_ne_nil {B : Buffer} (h : B.wellFormed = true) : B.raw ≠ [] := by
  obtain ⟨hd, hh, hw, _, hl, _⟩ := (wellFormed_iff B).1 h
  have : 0 < B.size := Nat.mul_pos (Nat.mul_pos hh hw) (by omega)
  exact List.ne_nil_of_length_pos (hl ▸ this)

/-- The adjusted value of a sample lies between the two immediates (42 R114 (a)). -/
theorem adjustSample_bounds (tie : Tie) {rmin rmax newMin newMax v : Nat} (h : rmin < rmax) (h1 : rmin ≤ v)
    (h2 : v ≤ rmax) : min newMin newMax ≤ adjustSample tie rmin rmax newMin newMax v
      ∧ adjustSample tie rmin rmax newMin newMax v ≤ max newMin newMax := by
  have hD : ((rmax - rmin : Nat) : Int) = (rmax : Int) - rmin := by omega
  have hv : (0 : Int) ≤ (v : Int) - rmin := by omega
  have hw : (0 : Int) ≤ (rmax : Int) - v := by omega
  have hb := rnd_bounds tie (adjustNumerator v rmin rmax newMin newMax) (min newMin newMax : Nat)
    (max newMin newMax : Nat) (rmax - rmin) (by omega)
  rw [hD] at hb
  have key := hb ?_ ?_
  · unfold adjustSample
    omega
  · unfold adjustNumerator
    rcases le_total newMin newMax with hle | hle
    · rw [min_eq_left hle]
      have : (0 : Int) ≤ (newMax : Int) - newMin := by omega
      nlinarith
    · rw [min_eq_right hle]
      have : (0 : Int) ≤ (newMin : Int) - newMax := by omega
      nlinarith
  · unfold adjustNumerator
    rcases le_total newMin newMax with hle | hle
    · rw [max_eq_right hle]
      have : (0 : Int) ≤ (newMax : Int) - newMin := by omega
      nlinarith
    · rw [max_eq_left hle]
      have : (0 : Int) ≤ (newMin : Int) - newMax := by omega
      nlinarith

theorem Format.scale_pos (f : Format) : 1 ≤ f.scale := by cases f <;> decide

/-- An operation's function answers, for a well-formed source, a well-formed buffer of the shape of 20_memory R67. -/
def ResultLegal (resultShape : Shape → Shape) (f : Config → Buffer → Except ErrorKind Buffer) : Prop :=
  ∀ c S B, S.wellFormed = true → f c S = .ok B → B.wellFormed = true ∧ B.shape = resultShape S.shape

theorem gray_wellFormed {S : Buffer} (hS : S.wellFormed = true) : (gray S).wellFormed = true := by
  unfold gray
  split
  · exact hS
  · rename_i hd
    obtain ⟨hd', hh, hw, hf, _, _⟩ := (wellFormed_iff S).1 hS
    have hd3 : S.d = 3 := by omega
    have hu : S.fmt.scale = 1 := by
      cases hS' : S.fmt
      · rfl
      · exact absurd ⟨hS', hd3⟩ hf
    refine tabulate_wellFormed (Or.inl rfl) hh hw (by simp) fun y x _ hy hx _ => ?_
    have hb : ∀ c < 3, S.sample y x c ≤ 255 := fun c hc => by
      have := sample_le hS hy hx (hd3 ▸ hc)
      rwa [hu] at this
    have hr : redChannel S.chord < 3 := by cases S.chord <;> decide
    have hg : greenChannel S.chord < 3 := by cases S.chord <;> decide
    have hbl : blueChannel S.chord < 3 := by cases S.chord <;> decide
    have := hb _ hr
    have := hb _ hg
    have := hb _ hbl
    show luminance _ _ _ ≤ 255 * 1000
    unfold luminance
    omega

theorem gray_shape (S : Buffer) : (gray S).shape = S.shape.toGray := by
  unfold gray
  split
  · rename_i h
    simp [Buffer.shape, Shape.toGray, h]
  · rfl

theorem gray_legal : ResultLegal Shape.toGray fun _ S => .ok (gray S) := by
  intro c S B hS h
  cases h
  exact ⟨gray_wellFormed hS, gray_shape S⟩

/-- What `Adjust` answers when it succeeds (42 R112). -/
theorem adjust_ok {tie : Tie} {S B : Buffer} {newMin newMax : Nat} (h : adjust tie S newMin newMax = .ok B) :
    S.d = 1 ∧ rawMin S ≠ rawMax S ∧ B = Buffer.tabulate S.h S.w 1 .u8 S.chord fun y x _ =>
      adjustSample tie (rawMin S) (rawMax S) newMin newMax (S.sample y x 0) := by
  unfold adjust at h
  split at h
  · cases h
  · split at h
    · cases h
    · rename_i h1 h2
      cases h
      exact ⟨by omega, h2, rfl⟩

/-- Every sample of an adjusted buffer lies between the two immediates (42 R114 (a)). -/
theorem adjust_raw_bounds {tie : Tie} {S B : Buffer} {newMin newMax r : Nat} (hS : S.wellFormed = true)
    (h : adjust tie S newMin newMax = .ok B) (hr : r ∈ B.raw) : min newMin newMax ≤ r ∧ r ≤ max newMin newMax := by
  obtain ⟨hd, hne, rfl⟩ := adjust_ok h
  obtain ⟨y, x, c, hy, hx, _, rfl⟩ := tabulate_raw_mem hr
  have hmem : S.sample y x 0 ∈ S.raw := sample_mem ((wellFormed_iff S).1 hS).2.2.2.2.1 hy hx (by omega)
  have h1 := rawMin_le hmem
  have h2 := le_rawMax hmem
  exact adjustSample_bounds tie (by omega) h1 h2

theorem adjust_legal (newMin newMax : Nat) (h1 : newMin ≤ 255) (h2 : newMax ≤ 255) :
    ResultLegal Shape.toGray fun c S => adjust c.params.tie S newMin newMax := by
  intro c S B hS h
  obtain ⟨_, hh, hw, _, _, _⟩ := (wellFormed_iff S).1 hS
  have hb := fun r hr => adjust_raw_bounds (r := r) hS h hr
  obtain ⟨hd, hne, rfl⟩ := adjust_ok h
  refine ⟨(wellFormed_iff _).2 ⟨Or.inl rfl, hh, hw, by simp, tabulate_raw_length .., fun r hr => ?_⟩, rfl⟩
  have := hb r hr
  show r ≤ 255 * 1
  omega

theorem mask_le_one (c : Config) (k : Nat) (a b : Fin 3) : c.mask k a b ≤ 1 := by
  unfold Config.mask
  split <;> omega

/-- What `Halftone` answers when it succeeds (43 R124). -/
theorem halftone_ok {c : Config} {S B : Buffer} (h : halftone c S = .ok B) :
    ∃ A, adjust c.params.tie (gray S) 0 9 = .ok A ∧ (∀ idx ∈ A.raw, idx ≤ 9) ∧ B = tiles c A := by
  unfold halftone at h
  split at h
  · cases h
  · rename_i A hA
    unfold encodeTiles at h
    split at h
    · cases h
    · rename_i hidx
      cases h
      refine ⟨A, hA, fun idx hmem => ?_, rfl⟩
      simp only [List.any_eq_true, decide_eq_true_eq, not_exists, not_and] at hidx
      have := hidx idx hmem
      omega

theorem halftone_legal : ResultLegal Shape.tripled halftone := by
  intro c S B hS h
  obtain ⟨A, hA, _, rfl⟩ := halftone_ok h
  obtain ⟨_, hh, hw, _, _, _⟩ := (wellFormed_iff S).1 hS
  obtain ⟨_, _, rfl⟩ := adjust_ok hA
  have hshape := gray_shape S
  simp only [Buffer.shape, Shape.toGray, Shape.mk.injEq] at hshape
  obtain ⟨gh, gw, _⟩ := hshape
  constructor
  · refine tabulate_wellFormed (Or.inl rfl) ?_ ?_ (by simp) fun y x _ _ _ _ => ?_
    · show 1 ≤ 3 * (gray S).h
      omega
    · show 1 ≤ 3 * (gray S).w
      omega
    · have := mask_le_one c
        ((Buffer.tabulate (gray S).h (gray S).w 1 .u8 (gray S).chord fun y x _ =>
          adjustSample c.params.tie (rawMin (gray S)) (rawMax (gray S)) 0 9
            ((gray S).sample y x 0)).sample (y / 3) (x / 3) 0) (tileCoordinate y) (tileCoordinate x)
      show 255 * _ ≤ 255 * 1
      omega
  · show Shape.mk (3 * (gray S).h) (3 * (gray S).w) 1 = _
    rw [gh, gw]
    rfl

theorem convolve_legal (k : Fin 11) :
    ResultLegal Shape.same fun c S => .ok (convolve c.params.tie (c.kernel k) S) := by
  intro c S B hS h
  cases h
  obtain ⟨hd, hh, hw, _, _, _⟩ := (wellFormed_iff S).1 hS
  refine ⟨tabulate_wellFormed hd hh hw (by simp) fun _ _ _ _ _ _ => ?_, rfl⟩
  exact clip_le _

theorem remap_wellFormed {S : Buffer} (hS : S.wellFormed = true) {h w : Nat} {f : Nat → Nat → Nat → Nat}
    (hh : 1 ≤ h) (hw : 1 ≤ w) (hf : ∀ y x c, y < h → x < w → c < S.d → f y x c ≤ 255 * S.fmt.scale) :
    (remap S h w f).wellFormed = true :=
  have hwf := (wellFormed_iff S).1 hS
  tabulate_wellFormed hwf.1 hh hw hwf.2.2.2.1 hf

theorem wellFormed_dims {S : Buffer} (hS : S.wellFormed = true) : 1 ≤ S.h ∧ 1 ≤ S.w :=
  ⟨((wellFormed_iff S).1 hS).2.1, ((wellFormed_iff S).1 hS).2.2.1⟩

theorem rot90_legal : ResultLegal Shape.turned fun _ S => .ok (rot90 S) := by
  intro c S B hS h
  cases h
  obtain ⟨hh, hw⟩ := wellFormed_dims hS
  exact ⟨remap_wellFormed hS hw hh fun y x c hy hx hc => sample_le hS (by omega) hy hc, rfl⟩

theorem rotm90_legal : ResultLegal Shape.turned fun _ S => .ok (rotm90 S) := by
  intro c S B hS h
  cases h
  obtain ⟨hh, hw⟩ := wellFormed_dims hS
  exact ⟨remap_wellFormed hS hw hh fun y x c hy hx hc => sample_le hS hx (by omega) hc, rfl⟩

theorem rot180_legal : ResultLegal Shape.same fun _ S => .ok (rot180 S) := by
  intro c S B hS h
  cases h
  obtain ⟨hh, hw⟩ := wellFormed_dims hS
  exact ⟨remap_wellFormed hS hh hw fun y x c hy hx hc => sample_le hS (by omega) (by omega) hc, rfl⟩

theorem horFlip_legal : ResultLegal Shape.same fun _ S => .ok (horFlip S) := by
  intro c S B hS h
  cases h
  obtain ⟨hh, hw⟩ := wellFormed_dims hS
  exact ⟨remap_wellFormed hS hh hw fun y x c hy hx hc => sample_le hS hy (by omega) hc, rfl⟩

theorem vertFlip_legal : ResultLegal Shape.same fun _ S => .ok (vertFlip S) := by
  intro c S B hS h
  cases h
  obtain ⟨hh, hw⟩ := wellFormed_dims hS
  exact ⟨remap_wellFormed hS hh hw fun y x c hy hx hc => sample_le hS (by omega) hx hc, rfl⟩

theorem downscale_legal : ResultLegal Shape.halved fun _ S => .ok (downscale S) := by
  intro c S B hS h
  cases h
  obtain ⟨hh, hw⟩ := wellFormed_dims hS
  exact ⟨remap_wellFormed hS (by omega) (by omega) fun y x c hy hx hc =>
    sample_le hS (by omega) (by omega) hc, rfl⟩

theorem negate_legal : ResultLegal Shape.same fun _ S => .ok (negate S) := by
  intro c S B hS h
  cases h
  obtain ⟨hh, hw⟩ := wellFormed_dims hS
  exact ⟨remap_wellFormed hS hh hw fun y x c hy hx hc => Nat.sub_le _ _, rfl⟩

end Sys2Proof.Machine
end

