-- ==== Sys2Proof/Laws/State.lean ====
section
/-! SUPPORT. One lemma per field per named update of the state, so that no proof unfolds a record update. -/

namespace Sys2Proof.Machine

@[simp] theorem start_cmd (v : Word) (s : State) : (start v s).cmd = v := rfl
@[simp] theorem start_status (v : Word) (s : State) : (start v s).status = startStatus s.status := rfl
@[simp] theorem start_srcH (v : Word) (s : State) : (start v s).srcH = s.srcH := rfl
@[simp] theorem start_srcW (v : Word) (s : State) : (start v s).srcW = s.srcW := rfl
@[simp] theorem start_srcCfg (v : Word) (s : State) : (start v s).srcCfg = s.srcCfg := rfl
@[simp] theorem start_dstH (v : Word) (s : State) : (start v s).dstH = s.dstH := rfl
@[simp] theorem start_dstW (v : Word) (s : State) : (start v s).dstW = s.dstW := rfl
@[simp] theorem start_dstCfg (v : Word) (s : State) : (start v s).dstCfg = s.dstCfg := rfl
@[simp] theorem start_src (v : Word) (s : State) : (start v s).src = s.src := rfl
@[simp] theorem start_dst (v : Word) (s : State) : (start v s).dst = s.dst := rfl
@[simp] theorem start_config (v : Word) (s : State) : (start v s).config = s.config := rfl
@[simp] theorem start_draws (v : Word) (s : State) : (start v s).draws = s.draws := rfl
@[simp] theorem start_schedule (v : Word) (s : State) : (start v s).schedule = s.schedule := rfl
@[simp] theorem start_response (v : Word) (s : State) : (start v s).response = s.response := rfl

@[simp] theorem completeErr_cmd (e : ErrorKind) (s : State) : (completeErr e s).cmd = s.cmd := rfl
@[simp] theorem completeErr_status (e : ErrorKind) (s : State) : (completeErr e s).status = errStatus e s.status := rfl
@[simp] theorem completeErr_srcH (e : ErrorKind) (s : State) : (completeErr e s).srcH = s.srcH := rfl
@[simp] theorem completeErr_srcW (e : ErrorKind) (s : State) : (completeErr e s).srcW = s.srcW := rfl
@[simp] theorem completeErr_srcCfg (e : ErrorKind) (s : State) : (completeErr e s).srcCfg = s.srcCfg := rfl
@[simp] theorem completeErr_dstH (e : ErrorKind) (s : State) : (completeErr e s).dstH = s.dstH := rfl
@[simp] theorem completeErr_dstW (e : ErrorKind) (s : State) : (completeErr e s).dstW = s.dstW := rfl
@[simp] theorem completeErr_dstCfg (e : ErrorKind) (s : State) : (completeErr e s).dstCfg = s.dstCfg := rfl
@[simp] theorem completeErr_src (e : ErrorKind) (s : State) : (completeErr e s).src = s.src := rfl
@[simp] theorem completeErr_dst (e : ErrorKind) (s : State) : (completeErr e s).dst = s.dst := rfl
@[simp] theorem completeErr_config (e : ErrorKind) (s : State) : (completeErr e s).config = s.config := rfl
@[simp] theorem completeErr_draws (e : ErrorKind) (s : State) : (completeErr e s).draws = s.draws := rfl
@[simp] theorem completeErr_schedule (e : ErrorKind) (s : State) : (completeErr e s).schedule = s.schedule := rfl
@[simp] theorem completeErr_response (e : ErrorKind) (s : State) : (completeErr e s).response = s.response := rfl

@[simp] theorem completeOk_cmd (B : Buffer) (s : State) : (completeOk B s).cmd = s.cmd := rfl
@[simp] theorem completeOk_status (B : Buffer) (s : State) : (completeOk B s).status = okStatus s.status := rfl
@[simp] theorem completeOk_srcH (B : Buffer) (s : State) : (completeOk B s).srcH = s.srcH := rfl
@[simp] theorem completeOk_srcW (B : Buffer) (s : State) : (completeOk B s).srcW = s.srcW := rfl
@[simp] theorem completeOk_srcCfg (B : Buffer) (s : State) : (completeOk B s).srcCfg = s.srcCfg := rfl
@[simp] theorem completeOk_dstH (B : Buffer) (s : State) : (completeOk B s).dstH = zext32 B.h := rfl
@[simp] theorem completeOk_dstW (B : Buffer) (s : State) : (completeOk B s).dstW = zext32 B.w := rfl
@[simp] theorem completeOk_dstCfg (B : Buffer) (s : State) : (completeOk B s).dstCfg = cfgOf B.d B.fmt B.chord := rfl
@[simp] theorem completeOk_src (B : Buffer) (s : State) : (completeOk B s).src = s.src := rfl
@[simp] theorem completeOk_dst (B : Buffer) (s : State) : (completeOk B s).dst = s.dst.writeRun 0 (B.raw.map zext32) := rfl
@[simp] theorem completeOk_config (B : Buffer) (s : State) : (completeOk B s).config = s.config := rfl
@[simp] theorem completeOk_draws (B : Buffer) (s : State) : (completeOk B s).draws = s.draws := rfl
@[simp] theorem completeOk_schedule (B : Buffer) (s : State) : (completeOk B s).schedule = s.schedule := rfl
@[simp] theorem completeOk_response (B : Buffer) (s : State) : (completeOk B s).response = s.response := rfl

@[simp] theorem writeSrc_cmd (a : Nat) (v : Word) (s : State) : (writeSrc a v s).cmd = s.cmd := rfl
@[simp] theorem writeSrc_status (a : Nat) (v : Word) (s : State) : (writeSrc a v s).status = s.status := rfl
@[simp] theorem writeSrc_srcH (a : Nat) (v : Word) (s : State) : (writeSrc a v s).srcH = s.srcH := rfl
@[simp] theorem writeSrc_srcW (a : Nat) (v : Word) (s : State) : (writeSrc a v s).srcW = s.srcW := rfl
@[simp] theorem writeSrc_srcCfg (a : Nat) (v : Word) (s : State) : (writeSrc a v s).srcCfg = s.srcCfg := rfl
@[simp] theorem writeSrc_dstH (a : Nat) (v : Word) (s : State) : (writeSrc a v s).dstH = s.dstH := rfl
@[simp] theorem writeSrc_dstW (a : Nat) (v : Word) (s : State) : (writeSrc a v s).dstW = s.dstW := rfl
@[simp] theorem writeSrc_dstCfg (a : Nat) (v : Word) (s : State) : (writeSrc a v s).dstCfg = s.dstCfg := rfl
@[simp] theorem writeSrc_src (a : Nat) (v : Word) (s : State) : (writeSrc a v s).src = s.src.write a v := rfl
@[simp] theorem writeSrc_dst (a : Nat) (v : Word) (s : State) : (writeSrc a v s).dst = s.dst := rfl
@[simp] theorem writeSrc_config (a : Nat) (v : Word) (s : State) : (writeSrc a v s).config = s.config := rfl
@[simp] theorem writeSrc_draws (a : Nat) (v : Word) (s : State) : (writeSrc a v s).draws = s.draws := rfl
@[simp] theorem writeSrc_schedule (a : Nat) (v : Word) (s : State) : (writeSrc a v s).schedule = s.schedule := rfl
@[simp] theorem writeSrc_response (a : Nat) (v : Word) (s : State) : (writeSrc a v s).response = s.response := rfl

@[simp] theorem dropBusyWrite_cmd (s : State) : (dropBusyWrite s).cmd = s.cmd := rfl
@[simp] theorem dropBusyWrite_status (s : State) : (dropBusyWrite s).status = withWbusy true s.status := rfl
@[simp] theorem dropBusyWrite_srcH (s : State) : (dropBusyWrite s).srcH = s.srcH := rfl
@[simp] theorem dropBusyWrite_srcW (s : State) : (dropBusyWrite s).srcW = s.srcW := rfl
@[simp] theorem dropBusyWrite_srcCfg (s : State) : (dropBusyWrite s).srcCfg = s.srcCfg := rfl
@[simp] theorem dropBusyWrite_dstH (s : State) : (dropBusyWrite s).dstH = s.dstH := rfl
@[simp] theorem dropBusyWrite_dstW (s : State) : (dropBusyWrite s).dstW = s.dstW := rfl
@[simp] theorem dropBusyWrite_dstCfg (s : State) : (dropBusyWrite s).dstCfg = s.dstCfg := rfl
@[simp] theorem dropBusyWrite_src (s : State) : (dropBusyWrite s).src = s.src := rfl
@[simp] theorem dropBusyWrite_dst (s : State) : (dropBusyWrite s).dst = s.dst := rfl
@[simp] theorem dropBusyWrite_config (s : State) : (dropBusyWrite s).config = s.config := rfl
@[simp] theorem dropBusyWrite_draws (s : State) : (dropBusyWrite s).draws = s.draws := rfl
@[simp] theorem dropBusyWrite_schedule (s : State) : (dropBusyWrite s).schedule = s.schedule := rfl
@[simp] theorem dropBusyWrite_response (s : State) : (dropBusyWrite s).response = s.response := rfl

@[simp] theorem resetCore_cmd (s : State) : (resetCore s).cmd = 0 := rfl
@[simp] theorem resetCore_status (s : State) : (resetCore s).status = 0 := rfl
@[simp] theorem resetCore_srcH (s : State) : (resetCore s).srcH = 0 := rfl
@[simp] theorem resetCore_srcW (s : State) : (resetCore s).srcW = 0 := rfl
@[simp] theorem resetCore_srcCfg (s : State) : (resetCore s).srcCfg = 0 := rfl
@[simp] theorem resetCore_dstH (s : State) : (resetCore s).dstH = 0 := rfl
@[simp] theorem resetCore_dstW (s : State) : (resetCore s).dstW = 0 := rfl
@[simp] theorem resetCore_dstCfg (s : State) : (resetCore s).dstCfg = 0 := rfl
@[simp] theorem resetCore_src (s : State) : (resetCore s).src = [] := rfl
@[simp] theorem resetCore_dst (s : State) : (resetCore s).dst = [] := rfl
@[simp] theorem resetCore_config (s : State) : (resetCore s).config = s.config := rfl
@[simp] theorem resetCore_draws (s : State) : (resetCore s).draws = s.draws + 1 := rfl
@[simp] theorem resetCore_schedule (s : State) : (resetCore s).schedule = s.schedule := rfl
@[simp] theorem resetCore_response (s : State) : (resetCore s).response = s.response := rfl

@[simp] theorem perform_response (t : Transaction) (s : State) :
    (perform t s).response = transactionReturns t s := rfl
@[simp] theorem perform_cmd (t : Transaction) (s : State) : (perform t s).cmd = (transactionEffect t s).cmd := rfl
@[simp] theorem perform_status (t : Transaction) (s : State) : (perform t s).status = (transactionEffect t s).status := rfl
@[simp] theorem perform_srcH (t : Transaction) (s : State) : (perform t s).srcH = (transactionEffect t s).srcH := rfl
@[simp] theorem perform_srcW (t : Transaction) (s : State) : (perform t s).srcW = (transactionEffect t s).srcW := rfl
@[simp] theorem perform_srcCfg (t : Transaction) (s : State) : (perform t s).srcCfg = (transactionEffect t s).srcCfg := rfl
@[simp] theorem perform_dstH (t : Transaction) (s : State) : (perform t s).dstH = (transactionEffect t s).dstH := rfl
@[simp] theorem perform_dstW (t : Transaction) (s : State) : (perform t s).dstW = (transactionEffect t s).dstW := rfl
@[simp] theorem perform_dstCfg (t : Transaction) (s : State) : (perform t s).dstCfg = (transactionEffect t s).dstCfg := rfl
@[simp] theorem perform_src (t : Transaction) (s : State) : (perform t s).src = (transactionEffect t s).src := rfl
@[simp] theorem perform_dst (t : Transaction) (s : State) : (perform t s).dst = (transactionEffect t s).dst := rfl
@[simp] theorem perform_config (t : Transaction) (s : State) : (perform t s).config = (transactionEffect t s).config := rfl
@[simp] theorem perform_draws (t : Transaction) (s : State) : (perform t s).draws = (transactionEffect t s).draws := rfl
@[simp] theorem perform_schedule (t : Transaction) (s : State) : (perform t s).schedule = (transactionEffect t s).schedule := rfl

end Sys2Proof.Machine
end

