-- ==== Sys2Proof/Laws/Complete.lean ====
section
/-! SUPPORT. What COMPLETE does (20_memory R66, 60_exceptions R186, R188), said once for every operation. -/

namespace Sys2Proof.Machine

/-- Everything the shared form of a meaning can do. -/
theorem runOperation_cases {sh : Shape → Shape} {f : Config → Buffer → Except ErrorKind Buffer} {s t : State}
    (h : runOperation sh f s = .next t) :
    (sourceOk s = false ∧ t = completeErr .shape s)
    ∨ (sourceOk s = true ∧ s.config.params.dstCap < (sh (sourceBuffer s).shape).size ∧ t = completeErr .shape s)
    ∨ (sourceOk s = true ∧ (sh (sourceBuffer s).shape).size ≤ s.config.params.dstCap
        ∧ ∃ e, f s.config (sourceBuffer s) = .error e ∧ t = completeErr e s)
    ∨ (sourceOk s = true ∧ (sh (sourceBuffer s).shape).size ≤ s.config.params.dstCap
        ∧ ∃ B, f s.config (sourceBuffer s) = .ok B ∧ t = completeOk B s) := by
  unfold runOperation at h
  cases h
  unfold evalOperation
  cases hs : sourceOk s
  · exact Or.inl ⟨rfl, by simp [complete]⟩
  · by_cases hc : (sh (sourceBuffer s).shape).size > s.config.params.dstCap
    · refine Or.inr (Or.inl ⟨rfl, hc, ?_⟩)
      simp [hc, complete]
    · simp only [Bool.not_true, Bool.false_eq_true, if_false, hc, true_and, false_and, false_or]
      right
      cases hf : f s.config (sourceBuffer s) with
      | error e => exact Or.inl ⟨by omega, e, rfl, rfl⟩
      | ok B => exact Or.inr ⟨by omega, B, rfl, rfl⟩

/-- A malformed source ends the command with `ShapeError` (60_exceptions R181 (a)). -/
theorem runOperation_malformed {sh : Shape → Shape} {f : Config → Buffer → Except ErrorKind Buffer} {s : State}
    (h : sourceOk s = false) : runOperation sh f s = .next (completeErr .shape s) := by
  simp [runOperation, evalOperation, h, complete]

/-- A result that does not fit ends the command with `ShapeError` (60_exceptions R181 (b)). -/
theorem runOperation_tooLarge {sh : Shape → Shape} {f : Config → Buffer → Except ErrorKind Buffer} {s : State}
    (h : s.config.params.dstCap < (sh (sourceBuffer s).shape).size) :
    runOperation sh f s = .next (completeErr .shape s) := by
  unfold runOperation evalOperation
  cases sourceOk s
  · rfl
  · rw [if_neg (by simp), if_pos h]
    rfl

/-- A source that passes and a result that fits: the operation's own function decides. -/
theorem runOperation_checked {sh : Shape → Shape} {f : Config → Buffer → Except ErrorKind Buffer} {s : State}
    (h : sourceOk s = true) (hc : (sh (sourceBuffer s).shape).size ≤ s.config.params.dstCap) :
    runOperation sh f s = .next (complete (f s.config (sourceBuffer s)) s) := by
  unfold runOperation evalOperation
  rw [h, if_neg (by simp), if_neg (by omega)]

/-- Every meaning is the shared form over a function that keeps to its shape, so one proof covers all operations. -/
theorem exec_eq_runOperation (i : Instr) (hi : i.wellFormed = true) :
    ∃ sh f, ResultLegal sh f ∧ ∀ s, exec i s = runOperation sh f s := by
  cases i with
  | grayscale => exact ⟨_, _, gray_legal, fun _ => rfl⟩
  | adjust a b =>
    simp only [Instr.wellFormed, Instr.immediateFits, Bool.and_eq_true, decide_eq_true_eq] at hi
    exact ⟨_, _, adjust_legal a b hi.1 hi.2, fun _ => rfl⟩
  | halftone => exact ⟨_, _, halftone_legal, fun _ => rfl⟩
  | mean => exact ⟨_, _, convolve_legal 0, fun _ => rfl⟩
  | gaussian => exact ⟨_, _, convolve_legal 1, fun _ => rfl⟩
  | sharpen => exact ⟨_, _, convolve_legal 2, fun _ => rfl⟩
  | laplacian => exact ⟨_, _, convolve_legal 3, fun _ => rfl⟩
  | emboss => exact ⟨_, _, convolve_legal 4, fun _ => rfl⟩
  | motion => exact ⟨_, _, convolve_legal 5, fun _ => rfl⟩
  | xEdge => exact ⟨_, _, convolve_legal 6, fun _ => rfl⟩
  | yEdge => exact ⟨_, _, convolve_legal 7, fun _ => rfl⟩
  | brighten => exact ⟨_, _, convolve_legal 8, fun _ => rfl⟩
  | darken => exact ⟨_, _, convolve_legal 9, fun _ => rfl⟩
  | identity => exact ⟨_, _, convolve_legal 10, fun _ => rfl⟩
  | rot90 => exact ⟨_, _, rot90_legal, fun _ => rfl⟩
  | rotm90 => exact ⟨_, _, rotm90_legal, fun _ => rfl⟩
  | rot180 => exact ⟨_, _, rot180_legal, fun _ => rfl⟩
  | horFlip => exact ⟨_, _, horFlip_legal, fun _ => rfl⟩
  | vertFlip => exact ⟨_, _, vertFlip_legal, fun _ => rfl⟩
  | downscale => exact ⟨_, _, downscale_legal, fun _ => rfl⟩
  | negate => exact ⟨_, _, negate_legal, fun _ => rfl⟩

/-- Words of `DST` inside an `Ok` result are the result's (20_memory R66). -/
theorem dstWord_completeOk_inside {B : Buffer} {s : State} {k : Nat} (h : k < B.raw.length) :
    dstWord (completeOk B s) k = zext32 B.raw[k] := by
  unfold dstWord
  rw [completeOk_dst, Memory.find_writeRun_inside _ _ _ (by simpa using h)]
  simp

/-- Words of `DST` at or above the size keep their values (20_memory R66, 70 R218). -/
theorem dstWord_completeOk_outside {B : Buffer} {s : State} {k : Nat} (h : B.raw.length ≤ k) :
    dstWord (completeOk B s) k = dstWord s k := by
  unfold dstWord
  rw [completeOk_dst, Memory.find_writeRun_outside _ _ _ (by simpa using h)]
  rfl

theorem dstWord_completeErr (e : ErrorKind) (s : State) (k : Nat) : dstWord (completeErr e s) k = dstWord s k := rfl

theorem zext32_toNat {n : Nat} (h : n < 2 ^ 32) : (zext32 n).toNat = n := by
  unfold zext32
  rw [BitVec.toNat_ofNat, Nat.mod_eq_of_lt h]

theorem raw_lt_word {B : Buffer} (hB : B.wellFormed = true) {r : Nat} (hr : r ∈ B.raw) : r < 2 ^ 32 := by
  have h := ((wellFormed_iff B).1 hB).2.2.2.2.2 r hr
  have hs : B.fmt.scale ≤ 1000 := by cases B.fmt <;> decide
  omega

/-- A sample of the result, read back from `DST` (20_memory R65, R66). -/
theorem dstWord_completeOk_sample {B : Buffer} (hB : B.wellFormed = true) (s : State) {y x c : Nat} (hy : y < B.h)
    (hx : x < B.w) (hc : c < B.d) :
    (dstWord (completeOk B s) (sampleIndex B.w B.d y x c)).toNat = B.sample y x c := by
  have hl := ((wellFormed_iff B).1 hB).2.2.2.2.1
  have hlt : sampleIndex B.w B.d y x c < B.raw.length := hl ▸ sampleIndex_lt hy hx hc
  rw [dstWord_completeOk_inside hlt, zext32_toNat (raw_lt_word hB (List.getElem_mem hlt))]
  unfold Buffer.sample
  rw [List.getD_eq_getElem?_getD, List.getElem?_eq_getElem hlt]
  rfl

/-- After an `Ok` COMPLETE the destination buffer value is the result (10_state R32, R36). -/
theorem destBuffer_completeOk {B : Buffer} (hB : B.wellFormed = true) (s : State) (hh : B.h < 2 ^ 32)
    (hw : B.w < 2 ^ 32) : destBuffer (completeOk B s) = B := by
  have hwf := (wellFormed_iff B).1 hB
  have hd : B.d < 4 := by omega
  obtain ⟨h1, h2, h3, _⟩ := cfgOf_fields B.d hd B.fmt B.chord
  have hraw : (List.range (B.h * B.w * B.d)).map (fun k => (dstWord (completeOk B s) k).toNat) = B.raw := by
    refine List.ext_getElem (by simpa [Buffer.size] using hwf.2.2.2.2.1.symm) fun k hk hk' => ?_
    rw [List.getElem_map, List.getElem_range, dstWord_completeOk_inside hk',
      zext32_toNat (raw_lt_word hB (List.getElem_mem hk'))]
  obtain ⟨h, w, d, fmt, chord, raw⟩ := B
  unfold destBuffer
  simp only [completeOk_dstH, completeOk_dstW, completeOk_dstCfg, zext32_toNat hh, zext32_toNat hw, h1, h2, h3]
  congr 1

end Sys2Proof.Machine
end

