-- ==== Sys2Proof/Laws/PerInstr.lean ====
section
/-! SUPPORT. The family Encoding, one lemma per operation: the fields of its command word (30_encoding R80 to R82). -/

namespace Sys2Proof.Laws.Encoding

/-- The fields of the command word of a well-formed operation, read back: `OPC`, `ARG0`, `ARG1`, and `RSV` zero. -/
def Statement (i : Instr) : Prop :=
  i.wellFormed = true →
    bits (encode i) 7 0 = i.opcode ∧ bits (encode i) 15 8 = i.arg0 ∧ bits (encode i) 23 16 = i.arg1
      ∧ bits (encode i) 31 24 = 0

theorem opcode_le (i : Instr) : i.opcode ≤ 255 := by cases i <;> simp [Instr.opcode]

/-- The command word of an operation whose immediates fit, as a number. -/
theorem encode_toNat {i : Instr} (h0 : i.arg0 ≤ 255) (h1 : i.arg1 ≤ 255) :
    (encode i).toNat = i.opcode + 256 * i.arg0 + 65536 * i.arg1 := by
  have ho := opcode_le i
  unfold encode zext32
  rw [BitVec.toNat_ofNat]
  omega

/-- The fields follow from the two immediates fitting. -/
theorem fields_of_fit {i : Instr} (h0 : i.arg0 ≤ 255) (h1 : i.arg1 ≤ 255) :
    bits (encode i) 7 0 = i.opcode ∧ bits (encode i) 15 8 = i.arg0 ∧ bits (encode i) 23 16 = i.arg1
      ∧ bits (encode i) 31 24 = 0 := by
  have ho := opcode_le i
  have he := encode_toNat h0 h1
  simp only [bits, he]
  omega

theorem adjust (newMin newMax : Nat) : Statement (.adjust newMin newMax) := fun h => by
  simp only [Instr.wellFormed, Instr.immediateFits, Bool.and_eq_true, decide_eq_true_eq] at h
  exact fields_of_fit h.1 h.2

theorem grayscale : Statement .grayscale := fun _ => fields_of_fit (Nat.zero_le _) (Nat.zero_le _)

theorem halftone : Statement .halftone := fun _ => fields_of_fit (Nat.zero_le _) (Nat.zero_le _)

theorem mean : Statement .mean := fun _ => fields_of_fit (Nat.zero_le _) (Nat.zero_le _)

theorem gaussian : Statement .gaussian := fun _ => fields_of_fit (Nat.zero_le _) (Nat.zero_le _)

theorem sharpen : Statement .sharpen := fun _ => fields_of_fit (Nat.zero_le _) (Nat.zero_le _)

theorem laplacian : Statement .laplacian := fun _ => fields_of_fit (Nat.zero_le _) (Nat.zero_le _)

theorem emboss : Statement .emboss := fun _ => fields_of_fit (Nat.zero_le _) (Nat.zero_le _)

theorem motion : Statement .motion := fun _ => fields_of_fit (Nat.zero_le _) (Nat.zero_le _)

theorem xEdge : Statement .xEdge := fun _ => fields_of_fit (Nat.zero_le _) (Nat.zero_le _)

theorem yEdge : Statement .yEdge := fun _ => fields_of_fit (Nat.zero_le _) (Nat.zero_le _)

theorem brighten : Statement .brighten := fun _ => fields_of_fit (Nat.zero_le _) (Nat.zero_le _)

theorem darken : Statement .darken := fun _ => fields_of_fit (Nat.zero_le _) (Nat.zero_le _)

theorem identity : Statement .identity := fun _ => fields_of_fit (Nat.zero_le _) (Nat.zero_le _)

theorem rot90 : Statement .rot90 := fun _ => fields_of_fit (Nat.zero_le _) (Nat.zero_le _)

theorem rotm90 : Statement .rotm90 := fun _ => fields_of_fit (Nat.zero_le _) (Nat.zero_le _)

theorem rot180 : Statement .rot180 := fun _ => fields_of_fit (Nat.zero_le _) (Nat.zero_le _)

theorem horFlip : Statement .horFlip := fun _ => fields_of_fit (Nat.zero_le _) (Nat.zero_le _)

theorem vertFlip : Statement .vertFlip := fun _ => fields_of_fit (Nat.zero_le _) (Nat.zero_le _)

theorem downscale : Statement .downscale := fun _ => fields_of_fit (Nat.zero_le _) (Nat.zero_le _)

theorem negate : Statement .negate := fun _ => fields_of_fit (Nat.zero_le _) (Nat.zero_le _)

end Sys2Proof.Laws.Encoding
end

