-- ==== Sys2Proof/Laws/Step.lean ====
section
/-! SUPPORT. Everything one step can do, said once (20_memory R51, R66, R68). -/

namespace Sys2Proof.Machine

/-- The state once its next event has left the schedule. -/
def popped (s : State) : State := { s with schedule := s.schedule.tail }

/-- It is the engine's turn: the schedule names it next, or holds nothing more. -/
def engineNext (s : State) : Prop := s.schedule = [] ∨ ∃ rest, s.schedule = .engine :: rest

theorem step_host {s : State} {t : Transaction} {rest : List Event} (h : s.schedule = .host t :: rest) :
    step s = .next (perform t (popped s)) := by
  unfold step popped
  rw [h]
  rfl

theorem step_engine {s : State} (h : engineNext s) : step s = engineTurn (popped s) := by
  rcases h with h | ⟨rest, h⟩
  · have hs : popped s = s := by
      unfold popped
      rw [h, List.tail_nil, ← h]
    unfold step
    rw [hs]
    simp only [h]
  · unfold step popped
    rw [h]
    rfl

/-- Who acts next: the host or the engine. -/
theorem host_or_engine (s : State) : (∃ t rest, s.schedule = .host t :: rest) ∨ engineNext s := by
  cases h : s.schedule with
  | nil => exact Or.inr (Or.inl h)
  | cons e rest =>
    cases e with
    | host t => exact Or.inl ⟨t, rest, rfl⟩
    | engine => exact Or.inr (Or.inr ⟨rest, h⟩)

theorem engineTurn_idle {s : State} (h : isBusy s = false) : engineTurn s = .next s := by
  unfold engineTurn
  rw [h]
  rfl

theorem engineTurn_lookupError {s : State} {e : DecodeError} (h : isBusy s = true) (hd : decode s.cmd = .error e) :
    engineTurn s = .next (completeErr (lookupError e) s) := by
  unfold engineTurn runHeldCommand heldCommand
  rw [h, hd]
  rfl

theorem engineTurn_decoded {s : State} {i : Instr} (h : isBusy s = true) (hd : decode s.cmd = .ok i) :
    engineTurn s = exec i s := by
  unfold engineTurn runHeldCommand heldCommand
  rw [h, hd]
  rfl

/-- The four things a step can do. -/
theorem step_cases {s t : State} (h : step s = .next t) :
    (∃ tr rest, s.schedule = .host tr :: rest ∧ t = perform tr (popped s))
    ∨ (engineNext s ∧ isBusy s = false ∧ t = popped s)
    ∨ (engineNext s ∧ isBusy s = true ∧ ∃ e, decode s.cmd = .error e ∧ t = completeErr (lookupError e) (popped s))
    ∨ (engineNext s ∧ isBusy s = true ∧ ∃ i, decode s.cmd = .ok i ∧ exec i (popped s) = .next t) := by
  rcases host_or_engine s with ⟨tr, rest, hs⟩ | hs
  · rw [step_host hs] at h
    cases h
    exact Or.inl ⟨tr, rest, hs, rfl⟩
  · right
    rw [step_engine hs] at h
    cases hb : isBusy s
    · rw [engineTurn_idle (s := popped s) hb] at h
      cases h
      exact Or.inl ⟨hs, rfl, rfl⟩
    · right
      cases hd : decode s.cmd with
      | error e =>
        rw [engineTurn_lookupError (s := popped s) hb hd] at h
        cases h
        exact Or.inl ⟨hs, rfl, e, rfl, rfl⟩
      | ok i =>
        rw [engineTurn_decoded (s := popped s) hb hd] at h
        exact Or.inr ⟨hs, rfl, i, rfl, h⟩

theorem writeStatus_cases (v : Word) (s : State) :
    writeStatus v s = s ∨ writeStatus v s = { s with status := withWbusy false s.status } := by
  unfold writeStatus
  split
  · exact Or.inr rfl
  · exact Or.inl rfl

/-- The state changes a host transaction can make (20_memory R52 to R58, 70 R210). -/
theorem transactionEffect_cases (tr : Transaction) (s : State) :
    transactionEffect tr s = s
    ∨ (isBusy s = true ∧ transactionEffect tr s = dropBusyWrite s)
    ∨ (isBusy s = false ∧ ∃ v, tr = .regWrite 0 v ∧ transactionEffect tr s = start v s)
    ∨ (isBusy s = false ∧ transactionEffect tr s = { s with status := withWbusy false s.status })
    ∨ (isBusy s = false ∧ ∃ v, transactionEffect tr s = { s with srcH := v })
    ∨ (isBusy s = false ∧ ∃ v, transactionEffect tr s = { s with srcW := v })
    ∨ (isBusy s = false ∧ ∃ v, transactionEffect tr s = { s with srcCfg := v })
    ∨ (isBusy s = false ∧ ∃ a v, a < s.config.params.srcCap ∧ transactionEffect tr s = writeSrc a v s)
    ∨ (tr = .reset ∧ transactionEffect tr s = resetCore s) := by
  cases hb : isBusy s
  · cases tr with
    | regWrite n v =>
      match n with
      | 0 => exact .inr (.inr (.inl ⟨rfl, v, rfl, by simp [transactionEffect, regWrite, hb, regWriteIdle]⟩))
      | 1 =>
        have he : transactionEffect (.regWrite 1 v) s = writeStatus v s := by
          simp [transactionEffect, regWrite, hb, regWriteIdle]
        rw [he]
        rcases writeStatus_cases v s with h | h
        · exact .inl h
        · exact .inr (.inr (.inr (.inl ⟨rfl, h⟩)))
      | 2 => exact .inr (.inr (.inr (.inr (.inl ⟨rfl, v, by simp [transactionEffect, regWrite, hb, regWriteIdle]⟩))))
      | 3 =>
        exact .inr (.inr (.inr (.inr (.inr (.inl ⟨rfl, v, by simp [transactionEffect, regWrite, hb, regWriteIdle]⟩)))))
      | 4 =>
        exact .inr (.inr (.inr (.inr (.inr (.inr (.inl
          ⟨rfl, v, by simp [transactionEffect, regWrite, hb, regWriteIdle]⟩))))))
      | n + 5 => exact .inl (by simp [transactionEffect, regWrite, hb, regWriteIdle])
    | srcWrite a v =>
      by_cases ha : a < s.config.params.srcCap
      · exact .inr (.inr (.inr (.inr (.inr (.inr (.inr (.inl
          ⟨rfl, a, v, ha, by simp [transactionEffect, srcWrite, hb, ha]⟩)))))))
      · exact .inl (by simp [transactionEffect, srcWrite, hb, ha])
    | dstWrite a v => exact .inl (by simp [transactionEffect, dstWrite, hb])
    | regRead n => exact .inl rfl
    | srcRead a => exact .inl rfl
    | dstRead a => exact .inl rfl
    | reset => exact .inr (.inr (.inr (.inr (.inr (.inr (.inr (.inr ⟨rfl, rfl⟩)))))))
  · cases tr with
    | regWrite n v => exact .inr (.inl ⟨rfl, by simp [transactionEffect, regWrite, hb]⟩)
    | srcWrite a v => exact .inr (.inl ⟨rfl, by simp [transactionEffect, srcWrite, hb]⟩)
    | dstWrite a v => exact .inr (.inl ⟨rfl, by simp [transactionEffect, dstWrite, hb]⟩)
    | regRead n => exact .inl rfl
    | srcRead a => exact .inl rfl
    | dstRead a => exact .inl rfl
    | reset => exact .inr (.inr (.inr (.inr (.inr (.inr (.inr (.inr ⟨rfl, rfl⟩)))))))

/-- A transaction neither reads nor changes the schedule. -/
theorem perform_withSchedule (t : Transaction) (s : State) (l : List Event) :
    perform t { s with schedule := l } = { perform t s with schedule := l } := by
  have hr : transactionReturns t { s with schedule := l } = transactionReturns t s := by
    cases t with
    | regRead n =>
      match n with
      | 0 => rfl
      | 1 => rfl
      | 2 => rfl
      | 3 => rfl
      | 4 => rfl
      | 5 => rfl
      | 6 => rfl
      | 7 => rfl
      | n + 8 => rfl
    | srcRead a => rfl
    | dstRead a => rfl
    | regWrite n v => rfl
    | srcWrite a v => rfl
    | dstWrite a v => rfl
    | reset => rfl
  have he : transactionEffect t { s with schedule := l } = { transactionEffect t s with schedule := l } := by
    have hb : isBusy { s with schedule := l } = isBusy s := rfl
    cases t with
    | regWrite n v =>
      simp only [transactionEffect, regWrite, hb]
      cases isBusy s
      · match n with
        | 0 => rfl
        | 1 =>
          simp only [Bool.false_eq_true, if_false, regWriteIdle, writeStatus]
          cases v.getLsbD 3 <;> rfl
        | 2 => rfl
        | 3 => rfl
        | 4 => rfl
        | n + 5 => rfl
      · rfl
    | srcWrite a v =>
      simp only [transactionEffect, srcWrite, hb]
      cases isBusy s
      · simp only [Bool.false_eq_true, if_false]
        split <;> rfl
      · rfl
    | dstWrite a v =>
      simp only [transactionEffect, dstWrite, hb]
      cases isBusy s <;> rfl
    | reset => rfl
    | regRead n => rfl
    | srcRead n => rfl
    | dstRead n => rfl
  unfold perform
  rw [hr, he]

/-- One step of a run, for any machine. -/
theorem run_next_of {M : Host.Core} {s t : M.State} (h : M.step s = .next t) (k : Nat) :
    M.run (k + 1) s = M.run k t := by
  rw [Host.Core.run, h]

/-- One step of a run of the CORE. -/
theorem run_next {s t : State} (h : step s = .next t) (k : Nat) :
    Host.Core.run Sys2Proof.core (k + 1) s = Host.Core.run Sys2Proof.core k t :=
  run_next_of (M := Sys2Proof.core) h k

end Sys2Proof.Machine
end

