-- ==== Sys2Proof/Tests/Slice0.lean ====
section
/-! SUPPORT. The model's own tests. Expected values are the spec's (the file and vector are named), never the model's
own answers. The last part shows, for each statement with hypotheses, a state and operands that meet them all. -/

namespace Sys2Proof.Tests

open Machine Claims

/-! ## Helpers -/

/-- The listed words of a memory from an address upward. -/
def cells (a : Nat) : List Nat → Memory
  | [] => []
  | v :: vs => (a, zext32 v) :: cells (a + 1) vs

/-- A CORE after reset whose host has described and loaded a source. -/
def image (h w cfg : Nat) (samples : List Nat) : State :=
  { State.reset with srcH := zext32 h, srcW := zext32 w, srcCfg := zext32 cfg, src := cells 0 samples }

/-- The same with a command word started. -/
def started (v : Word) (s : State) : State := start v s

/-- An instance with small memories (capacities 16 and 16) and `TIE = UP`. -/
def smallConfig : Config := ⟨⟨16, 16, .up, kromRef, httRef⟩, by decide +kernel⟩

/-- A state under the small instance. -/
def small (s : State) : State := { s with config := smallConfig }

/-- The result buffer after a meaning, when it reports DONE. -/
def result (o : Host.Outcome State Fault Refusal) : Option Buffer :=
  match o with
  | .next t => if doneFlag t.status then some (destBuffer t) else none
  | .fault _ => none
  | .refused _ => none

/-- The STATUS word after a meaning. -/
def statusOf (o : Host.Outcome State Fault Refusal) : Option Word :=
  match o with
  | .next t => some t.status
  | .fault _ => none
  | .refused _ => none

/-- The result of running an operation on a source, from START. -/
def run (i : Instr) (s : State) : Option Buffer := result (exec i (started (encode i) s))

/-- The STATUS word of running a command word on a source: START, then the engine's turn. -/
def runWord (v : Word) (s : State) : Option Word := statusOf (engineTurn (started v s))

/-- 44 section 3, 95 section 2.6: the 3×3 grayscale source. -/
def g3 : State := image 3 3 1 [10, 20, 30, 40, 50, 60, 70, 80, 90]

/-- 45 R161 to R167: the 2×3 grayscale source. -/
def p23 : State := image 2 3 1 [1, 2, 3, 4, 5, 6]

/-- 95 V-G8: the 1×2 colour source. -/
def colour12 : State := image 1 2 3 [10, 20, 30, 200, 100, 50]

/-- A 1×1 colour source (95 V-C1). -/
def colour11 : State := image 1 1 3 [10, 20, 30]

/-- A 1×1 grayscale source (95 section 2.1). -/
def gray11 : State := image 1 1 1 [7]

/-! ## Well-formedness (30_encoding R84, R89) -/

theorem test_adjust_first_immediate_too_large : (Instr.adjust 256 0).wellFormed = false := by decide

theorem test_adjust_second_immediate_too_large : (Instr.adjust 0 256).wellFormed = false := by decide

theorem test_immediate_limit : Instr.immediateFits 255 = true ∧ Instr.immediateFits 256 = false := by decide

/-! ## Decoding: words written out from 30_encoding R80 to R82 (`RSV`, `ARG1`, `ARG0`, `OPC`) -/

theorem test_decode_grayscale : decode 0b00000000000000000000000000000001#32 = .ok .grayscale := by decide

theorem test_decode_halftone : decode 0b00000000000000000000000000000011#32 = .ok .halftone := by decide

theorem test_decode_mean : decode 0b00000000000000000000000000010000#32 = .ok .mean := by decide

theorem test_decode_gaussian : decode 0b00000000000000000000000000010001#32 = .ok .gaussian := by decide

theorem test_decode_sharpen : decode 0b00000000000000000000000000010010#32 = .ok .sharpen := by decide

theorem test_decode_laplacian : decode 0b00000000000000000000000000010011#32 = .ok .laplacian := by decide

theorem test_decode_emboss : decode 0b00000000000000000000000000010100#32 = .ok .emboss := by decide

theorem test_decode_motion : decode 0b00000000000000000000000000010101#32 = .ok .motion := by decide

theorem test_decode_xEdge : decode 0b00000000000000000000000000010110#32 = .ok .xEdge := by decide

theorem test_decode_yEdge : decode 0b00000000000000000000000000010111#32 = .ok .yEdge := by decide

theorem test_decode_brighten : decode 0b00000000000000000000000000011000#32 = .ok .brighten := by decide

theorem test_decode_darken : decode 0b00000000000000000000000000011001#32 = .ok .darken := by decide

theorem test_decode_identity : decode 0b00000000000000000000000000011010#32 = .ok .identity := by decide

theorem test_decode_rot90 : decode 0b00000000000000000000000000100000#32 = .ok .rot90 := by decide

theorem test_decode_rotm90 : decode 0b00000000000000000000000000100001#32 = .ok .rotm90 := by decide

theorem test_decode_rot180 : decode 0b00000000000000000000000000100010#32 = .ok .rot180 := by decide

theorem test_decode_horFlip : decode 0b00000000000000000000000000100011#32 = .ok .horFlip := by decide

theorem test_decode_vertFlip : decode 0b00000000000000000000000000100100#32 = .ok .vertFlip := by decide

theorem test_decode_downscale : decode 0b00000000000000000000000000100101#32 = .ok .downscale := by decide

theorem test_decode_negate : decode 0b00000000000000000000000000100110#32 = .ok .negate := by decide

theorem test_decode_adjust : decode 0b00000000000010010000000000000010#32 = .ok (.adjust 0 9) := by decide

theorem test_decode_adjust_immediates :
    decode 0b00000000011010011100100000000010#32 = .ok (.adjust 0b11001000 0b01101001) := by decide

/-- 95 section 2.1, V-D1, V-D3, V-D5, V-D7, V-D12, V-D13, V-D15, V-D17. -/
theorem test_decode_unknown_operation :
    [0x00000000#32, 0x00000101#32, 0x01090002#32, 0x00000004#32, 0x0000011A#32, 0x00010010#32, 0x00000027#32,
      0xFFFFFFFF#32].map decode = List.replicate 8 (.error .unknownOperation) := by decide

/-- 95 section 2.1, V-D9, V-D10, V-D11: the function is tested before the must-be-zero bits. -/
theorem test_decode_unknown_kernel :
    [0x0000001B#32, 0x0000001F#32, 0xFFFFFF1F#32].map decode = List.replicate 3 (.error .unknownKernel) := by decide

/-- 30_encoding R84's word. -/
theorem test_encode_adjust : encode (.adjust 0 9) = 0x00090002#32 := by decide

theorem test_decodeTableWord : decodeTableWord 32 0x00FF0002 = some (.adjust 0 255) := by decide

theorem test_decodeTableWord_rejects : decodeTableWord 32 0x0000001B = none := by decide

/-! ## Reset and the host port -/

/-- 20_memory R54, R55: all 32 bits are stored, and read back. -/
theorem test_source_word_kept :
    transactionReturns (.srcRead 3) (perform (.srcWrite 3 0xFFFFFFFF#32) State.reset) = some 0xFFFFFFFF#32 := by decide

/-- 20_memory R54, R55 at the capacity. -/
theorem test_source_write_at_capacity :
    (perform (.srcWrite 4096 5) State.reset).src = [] ∧ transactionReturns (.srcRead 4096) State.reset = some 0 := by
  decide

/-- 20_memory R52: a write while busy sets `WBUSY` and is lost; 10_state R24: writing bit 3 clears it. -/
theorem test_busy_write :
    (perform (.regWrite 2 7) (started 0x26#32 gray11)).srcH = 1
    ∧ (perform (.regWrite 2 7) (started 0x26#32 gray11)).status = 0x00000009#32
    ∧ (perform (.regWrite 1 8) { gray11 with status := 0x0000000A#32 }).status = 0x00000002#32 := by decide

/-- 20_memory R57: a write to the destination while idle has no effect at all. -/
theorem test_destination_write_idle : (perform (.dstWrite 0 9) gray11) = { gray11 with response := none } := by
  rfl

/-- 20_memory R58: reserved bits of STATUS read as 0, and registers 8 and above. -/
theorem test_register_read :
    readRegister 1 { gray11 with status := 0xFFFFFFFF#32 } = 0x0000070F#32 ∧ readRegister 8 gray11 = 0 := by decide

/-- 20_memory R62, 95 section 2.2, V-S2, V-S3, V-S4, V-S5, V-S9, V-S11: each test of the source check. -/
theorem test_source_check :
    sourceOk (image 1 1 2 [5, 5]) = false ∧ sourceOk (image 1 1 0x11 [5]) = false ∧ sourceOk (image 0 5 1 [5]) = false
    ∧ sourceOk (image 1 1 7 [5, 5, 5]) = false ∧ sourceOk (image 1 2 1 [5, 256]) = false
    ∧ sourceOk (image 1 1 5 [255001]) = false ∧ sourceOk (image 1 1 5 [255000]) = true := by decide +kernel

/-! ## Errors (60_exceptions, 95 section 2.2) -/

/-- V-S13, V-S14: a lookup error is reported although the source is malformed. -/
theorem test_lookup_before_source :
    runWord 0x0000001B#32 (image 0 0 0 []) = some 0x00000304#32
    ∧ runWord 0x00000000#32 (image 0 0 0 []) = some 0x00000404#32 := by decide +kernel

/-- V-S1: `ShapeError` on the reset source. -/
theorem test_shape_error : runWord 0x00000026#32 (image 0 0 0 []) = some 0x00000104#32 := by decide +kernel

/-- 20_memory R67: a 3×3 source does not fit tripled into 16 words, before the operation's own check. -/
theorem test_shape_error_of_result : runWord 0x00000003#32 (small g3) = some 0x00000104#32 := by decide +kernel

/-! ## One step of each operation -/

/-- 95 V-G8. -/
theorem test_grayscale_colour :
    run .grayscale colour12
      = some ⟨1, 2, 1, .ym, .rgb, [18150, 124200]⟩ := by decide +kernel

/-- 95 V-G2: the same bytes under `BGR`. -/
theorem test_grayscale_bgr :
    run .grayscale (image 1 1 11 [10, 20, 30])
      = some ⟨1, 1, 1, .ym, .rgb, [21850]⟩ := by decide +kernel

/-- 95 V-A2: a half goes to the even neighbour. -/
theorem test_adjust_even :
    run (.adjust 0 9) (image 1 3 1 [0, 1, 2])
      = some ⟨1, 3, 1, .u8, .rgb, [0, 4, 9]⟩ := by decide +kernel

/-- 95 V-A8, `TIE = UP`. -/
theorem test_adjust_reversed_up :
    run (.adjust 9 0) (small (image 1 3 1 [0, 1, 2]))
      = some ⟨1, 3, 1, .u8, .rgb, [9, 5, 0]⟩ := by decide +kernel

/-- 95 V-H1. -/
theorem test_halftone :
    run .halftone (image 1 2 1 [0, 255])
      = some ⟨3, 6, 1, .u8, .rgb, [0, 0, 0, 255, 255, 255, 0, 0, 0, 255, 255, 255, 0, 0, 0, 255, 255, 255]⟩ := by decide +kernel

/-- 95 V-H8: equal luminances, `DomainError`. -/
theorem test_halftone_constant : runWord 0x00000003#32 (image 2 2 1 [7, 7, 7, 7]) = some 0x00000204#32 := by
  decide +kernel

/-- 44 section 3: the image `G3`. -/
theorem test_mean :
    run .mean g3
      = some ⟨3, 3, 1, .u8, .rgb, [50, 50, 50, 50, 50, 50, 50, 50, 50]⟩ := by decide +kernel

/-- 44 section 3: the image `G3`. -/
theorem test_gaussian :
    run .gaussian g3
      = some ⟨3, 3, 1, .u8, .rgb, [40, 42, 45, 48, 50, 52, 55, 58, 60]⟩ := by decide +kernel

/-- 44 section 3: the image `G3`. -/
theorem test_sharpen :
    run .sharpen g3
      = some ⟨3, 3, 1, .u8, .rgb, [0, 0, 0, 10, 50, 90, 130, 170, 210]⟩ := by decide +kernel

/-- 44 section 3: the image `G3`. -/
theorem test_laplacian :
    run .laplacian g3
      = some ⟨3, 3, 1, .u8, .rgb, [120, 90, 60, 30, 0, 0, 0, 0, 0]⟩ := by decide +kernel

/-- 44 section 3: the image `G3`. -/
theorem test_emboss :
    run .emboss g3
      = some ⟨3, 3, 1, .u8, .rgb, [0, 0, 0, 190, 255, 210, 0, 50, 0]⟩ := by decide +kernel

/-- 44 section 3: the image `G3`. -/
theorem test_motion :
    run .motion g3
      = some ⟨3, 3, 1, .u8, .rgb, [50, 50, 50, 50, 50, 50, 50, 50, 50]⟩ := by decide +kernel

/-- 44 section 3: the image `G3`. -/
theorem test_xEdge :
    run .xEdge g3
      = some ⟨3, 3, 1, .u8, .rgb, [0, 80, 0, 0, 80, 0, 0, 80, 0]⟩ := by decide +kernel

/-- 44 section 3: the image `G3`. -/
theorem test_yEdge :
    run .yEdge g3
      = some ⟨3, 3, 1, .u8, .rgb, [0, 0, 0, 240, 240, 240, 0, 0, 0]⟩ := by decide +kernel

/-- 44 section 3: the image `G3`. -/
theorem test_brighten :
    run .brighten g3
      = some ⟨3, 3, 1, .u8, .rgb, [15, 30, 45, 60, 75, 90, 105, 120, 135]⟩ := by decide +kernel

/-- 44 section 3: the image `G3`. -/
theorem test_darken :
    run .darken g3
      = some ⟨3, 3, 1, .u8, .rgb, [5, 10, 15, 20, 25, 30, 35, 40, 45]⟩ := by decide +kernel

/-- 44 section 3: the image `G3`. -/
theorem test_identity :
    run .identity g3
      = some ⟨3, 3, 1, .u8, .rgb, [10, 20, 30, 40, 50, 60, 70, 80, 90]⟩ := by decide +kernel

/-- 95 V-C4: a colour image truncates (151.5 to 151). -/
theorem test_colour_truncates :
    run .brighten (image 1 1 3 [101, 101, 101])
      = some ⟨1, 1, 3, .u8, .rgb, [151, 151, 151]⟩ := by decide +kernel

/-- 95 V-C3, `TIE = UP`. -/
theorem test_gray_rounds_up :
    run .darken (small (image 1 1 1 [101]))
      = some ⟨1, 1, 1, .u8, .rgb, [51]⟩ := by decide +kernel

/-- 95 V-C9: a `YM` source becomes `U8`. -/
theorem test_identity_ym :
    run .identity (image 1 4 5 [18150, 124200, 18500, 19500])
      = some ⟨1, 4, 1, .u8, .rgb, [18, 124, 18, 20]⟩ := by decide +kernel

/-- 45 R161. -/
theorem test_rot90 :
    run .rot90 p23
      = some ⟨3, 2, 1, .u8, .rgb, [4, 1, 5, 2, 6, 3]⟩ := by decide +kernel

/-- 45 R162. -/
theorem test_rotm90 :
    run .rotm90 p23
      = some ⟨3, 2, 1, .u8, .rgb, [3, 6, 2, 5, 1, 4]⟩ := by decide +kernel

/-- 95 V-X12: the channels of a pixel stay in place. -/
theorem test_rot180_colour :
    run .rot180 (image 1 2 3 [1, 2, 3, 4, 5, 6])
      = some ⟨1, 2, 3, .u8, .rgb, [4, 5, 6, 1, 2, 3]⟩ := by decide +kernel

/-- 45 R164. -/
theorem test_horFlip :
    run .horFlip p23
      = some ⟨2, 3, 1, .u8, .rgb, [3, 2, 1, 6, 5, 4]⟩ := by decide +kernel

/-- 45 R165. -/
theorem test_vertFlip :
    run .vertFlip p23
      = some ⟨2, 3, 1, .u8, .rgb, [4, 5, 6, 1, 2, 3]⟩ := by decide +kernel

/-- 45 R166: an odd width keeps its last column. -/
theorem test_downscale :
    run .downscale p23
      = some ⟨1, 2, 1, .u8, .rgb, [1, 3]⟩ := by decide +kernel

/-- 95 V-X16: `YM` is negated within its range. -/
theorem test_negate :
    run .negate (image 1 3 5 [0, 18150, 255000])
      = some ⟨1, 3, 1, .ym, .rgb, [255000, 236850, 0]⟩ := by decide +kernel

/-! ## Witnesses: for each statement with hypotheses, a state and operands that meet all of them -/

/-- A small image with an engine's turn and a host write still scheduled. -/
def scheduled (es : List Event) (s : State) : State := { s with schedule := es }

/-- `negate` held on a 1×1 source. -/
def heldNegate : State := started 0x00000026#32 gray11

/-- A CORE that holds the result of `negate`, idle. -/
def afterNegate : State := completeOk ⟨1, 1, 1, .u8, .rgb, [248]⟩ heldNegate

theorem witness_floor_division : 0 < 3 ∧ (-3 : Int) * (3 : Nat) ≤ -7 := by decide

theorem witness_truncation : 0 < 2 ∧ (0 : Int) ≤ 3 ∧ (-3 : Int) < 0 := by decide

/-- Below a half, above a half, and at the tie. -/
theorem witness_rounding :
    0 < 3 ∧ ((1 : Int) : ℚ) / ((3 : Nat) : ℚ) - (((1 : Int) : ℚ) / ((3 : Nat) : ℚ)).floor < 1 / 2
    ∧ 1 / 2 < ((2 : Int) : ℚ) / ((3 : Nat) : ℚ) - (((2 : Int) : ℚ) / ((3 : Nat) : ℚ)).floor
    ∧ 0 < 2 ∧ ((3 : Int) : ℚ) / ((2 : Nat) : ℚ) - (((3 : Int) : ℚ) / ((2 : Nat) : ℚ)).floor = 1 / 2 := by
  have h1 : (((1 : Int) : ℚ) / ((3 : Nat) : ℚ)).floor = 0 := Rat.floor_intCast_div_natCast 1 3
  have h2 : (((2 : Int) : ℚ) / ((3 : Nat) : ℚ)).floor = 0 := Rat.floor_intCast_div_natCast 2 3
  have h3 : (((3 : Int) : ℚ) / ((2 : Nat) : ℚ)).floor = 1 := Rat.floor_intCast_div_natCast 3 2
  rw [h1, h2, h3]
  norm_num

theorem witness_busy : isBusy heldNegate = true := by decide

/-- The clauses of the dropped write and of the reads, STATUS itself apart. -/
theorem witness_busy_transactions :
    isBusy heldNegate = true
    ∧ (∃ n v, Transaction.regWrite 2 5 = .regWrite n v) ∧ (∃ a v, Transaction.srcWrite 0 5 = .srcWrite a v)
    ∧ (∃ a v, Transaction.dstWrite 0 5 = .dstWrite a v) ∧ (∃ a, Transaction.srcRead 0 = .srcRead a)
    ∧ (∃ a, Transaction.dstRead 0 = .dstRead a) ∧ (∃ n, n ≠ 1 ∧ Transaction.regRead 0 = .regRead n) :=
  ⟨by decide, ⟨2, 5, rfl⟩, ⟨0, 5, rfl⟩, ⟨0, 5, rfl⟩, ⟨0, rfl⟩, ⟨0, rfl⟩, ⟨0, by decide, rfl⟩⟩

/-- An idle CORE, with each kind of read and of write that may follow START. -/
theorem witness_start :
    isBusy gray11 = false
    ∧ (∃ n, Transaction.regRead 1 = .regRead n) ∧ (∃ a, Transaction.srcRead 4096 = .srcRead a)
    ∧ (∃ a, Transaction.dstRead 0 = .dstRead a)
    ∧ (∃ n u, Transaction.regWrite 1 8 = .regWrite n u) ∧ (∃ a u, Transaction.srcWrite 0 1 = .srcWrite a u)
    ∧ ∃ a u, Transaction.dstWrite 0 1 = .dstWrite a u :=
  ⟨by decide, ⟨1, rfl⟩, ⟨4096, rfl⟩, ⟨0, rfl⟩, ⟨1, 8, rfl⟩, ⟨0, 1, rfl⟩, ⟨0, 1, rfl⟩⟩

/-- Both sides of the source capacity. -/
theorem witness_source_access :
    isBusy gray11 = false ∧ 4095 < gray11.config.params.srcCap ∧ gray11.config.params.srcCap ≤ 4096 := by decide

/-- Both sides of the destination capacity. -/
theorem witness_destination_access :
    36863 < gray11.config.params.dstCap ∧ gray11.config.params.dstCap ≤ 36864
    ∧ isBusy gray11 = false ∧ isBusy heldNegate = true := by decide

/-- Each register number of the write, and the first beyond. -/
theorem witness_register_write :
    isBusy gray11 = false ∧ ((0 : Nat) = 0 ∧ 1 = 1 ∧ 2 = 2 ∧ 3 = 3 ∧ 4 = 4 ∧ 5 ≤ 5) := by decide

theorem witness_register_read : 8 ≤ 8 := by decide

/-- A malformed source, and a result that is too large; the second also ends with code 1. -/
theorem witness_shape_error :
    Instr.halftone.wellFormed = true ∧ sourceOk (image 0 1 1 []) = false
    ∧ (small g3).config.params.dstCap < resultSizeIn .halftone (small g3) ∧ ecodeField (small g3).status ≠ 1
    ∧ ∃ t, exec .halftone (small g3) = .next t ∧ ecodeField t.status = 1 :=
  ⟨rfl, by decide +kernel, by decide +kernel, by decide, _, rfl, by decide +kernel⟩

theorem witness_decode_of_encode : (Instr.adjust 0 255).wellFormed = true := by decide

theorem witness_encode_of_decode : decode 0x00FF0002#32 = .ok (.adjust 0 255) := by decide

theorem witness_opcode_row :
    decode 0x00FF0002#32 = .ok (.adjust 0 255) ∧ ⟨"adjust", 0xFF0000FF#32, 0x00000002#32⟩ ∈ opcodeTable
    ∧ OpcodeRow.selects ⟨"adjust", 0xFF0000FF#32, 0x00000002#32⟩ 0x00FF0002#32 = true := by decide

/-- Each lookup error on a word at the edge of its range: functions 11 and 15, the row after the last. -/
theorem witness_lookup_errors :
    decode 0x0000001B#32 = .error .unknownKernel ∧ (bits 0x0000001F#32 7 4 = 0x1 ∧ 11 ≤ bits 0x0000001F#32 3 0)
    ∧ decode 0x00000027#32 = .error .unknownOperation
    ∧ (¬(bits 0x00000027#32 7 4 = 0x1 ∧ 11 ≤ bits 0x00000027#32 3 0)
      ∧ ∀ r ∈ opcodeTable, r.selects 0x00000027#32 = false) := by decide

theorem witness_assembled_line : assembleLine "adjust 0x0, 255".toList = .ok (.adjust 0 255) := by decide +kernel

theorem witness_step_runs :
    isBusy heldNegate = true ∧ decode heldNegate.cmd = .ok .negate ∧ heldNegate.schedule = []
    ∧ (scheduled [.engine] heldNegate).schedule = .engine :: [] := by decide

/-- With the engine scheduled, and with nothing scheduled. -/
theorem witness_step_lookup_error :
    isBusy (scheduled [.engine] (started 0x1B#32 gray11)) = true
    ∧ decode (scheduled [.engine] (started 0x1B#32 gray11)).cmd = .error .unknownKernel
    ∧ (scheduled [.engine] (started 0x1B#32 gray11)).schedule = .engine :: []
    ∧ isBusy (started 0x27#32 gray11) = true ∧ decode (started 0x27#32 gray11).cmd = .error .unknownOperation
    ∧ (started 0x27#32 gray11).schedule = [] := by decide

theorem witness_step_otherwise :
    (scheduled [.host .reset] gray11).schedule = .host .reset :: []
    ∧ isBusy (scheduled [.engine] gray11) = false ∧ (scheduled [.engine] gray11).schedule = .engine :: []
    ∧ isBusy gray11 = false ∧ gray11.schedule = [] := by decide

theorem witness_fetched_word : (Instr.adjust 255 0).wellFormed = true := by decide

theorem witness_operation_frame :
    Instr.negate.wellFormed = true ∧ (∃ t, exec .negate heldNegate = .next t)
    ∧ heldNegate.status.getLsbD 1 = false ∧ heldNegate.status.getLsbD 2 = false :=
  ⟨rfl, ⟨_, rfl⟩, by decide, by decide⟩

/-- `halftone` on a constant source ends with an error. -/
theorem witness_errors :
    Instr.halftone.wellFormed = true ∧ (started 3 gray11).status.getLsbD 2 = false
    ∧ ∃ t, exec .halftone (started 3 gray11) = .next t ∧ t.status.getLsbD 2 = true :=
  ⟨rfl, by decide, _, rfl, by decide +kernel⟩

theorem witness_index_defect :
    Buffer.wellFormed ⟨1, 2, 1, .u8, .rgb, [0, 255]⟩ = true
    ∧ (∃ t, step heldNegate = .next t) ∧ ecodeField heldNegate.status ≠ 5 :=
  ⟨by decide, ⟨_, rfl⟩, by decide⟩

/-- The colour and the grayscale case. -/
theorem witness_grayscale :
    (sourceOk colour12 = true ∧ colour12.srcH.toNat * colour12.srcW.toNat ≤ colour12.config.params.dstCap
      ∧ cfgDepth colour12.srcCfg = 3)
    ∧ (sourceOk g3 = true ∧ g3.srcH.toNat * g3.srcW.toNat ≤ g3.config.params.dstCap ∧ cfgDepth g3.srcCfg = 1) := by
  decide +kernel

theorem witness_grayscale_properties :
    Buffer.wellFormed ⟨1, 1, 3, .u8, .rgb, [10, 20, 30]⟩ = true
    ∧ Buffer.wellFormed ⟨1, 1, 3, .u8, .rgb, [10, 21, 30]⟩ = true
    ∧ ∀ y < 1, ∀ x < 1, ∀ c < 3,
        Buffer.sample ⟨1, 1, 3, .u8, .rgb, [10, 20, 30]⟩ y x c
          ≤ Buffer.sample ⟨1, 1, 3, .u8, .rgb, [10, 21, 30]⟩ y x c := by decide

theorem witness_adjust :
    9 ≤ 255 ∧ 0 ≤ 255 ∧ sourceOk g3 = true ∧ cfgDepth g3.srcCfg = 1
    ∧ g3.srcH.toNat * g3.srcW.toNat ≤ g3.config.params.dstCap
    ∧ (∀ k, k < g3.srcH.toNat * g3.srcW.toNat → 10 ≤ (srcWord g3 k).toNat ∧ (srcWord g3 k).toNat ≤ 90)
    ∧ (∃ k, k < g3.srcH.toNat * g3.srcW.toNat ∧ (srcWord g3 k).toNat = 10)
    ∧ (∃ k, k < g3.srcH.toNat * g3.srcW.toNat ∧ (srcWord g3 k).toNat = 90) ∧ 10 ≠ 90 := by
  refine ⟨by decide, by decide, by decide +kernel, by decide, by decide, ?_, ⟨0, by decide, by decide +kernel⟩,
    ⟨8, by decide, by decide +kernel⟩, by decide⟩
  have h : ∀ k < 9, 10 ≤ (srcWord g3 k).toNat ∧ (srcWord g3 k).toNat ≤ 90 := by decide +kernel
  exact h

/-- A colour source, and a constant grayscale one. -/
theorem witness_adjust_domain_error :
    9 ≤ 255 ∧ 255 ≤ 255
    ∧ (sourceOk colour12 = true ∧ colour12.srcH.toNat * colour12.srcW.toNat ≤ colour12.config.params.dstCap
      ∧ cfgDepth colour12.srcCfg = 3)
    ∧ (sourceOk gray11 = true ∧ gray11.srcH.toNat * gray11.srcW.toNat ≤ gray11.config.params.dstCap
      ∧ ∀ j < 1, ∀ k < 1, srcWord gray11 j = srcWord gray11 k) := by decide +kernel

/-- Both directions of the immediates, with two samples between the ends. -/
theorem witness_adjust_properties : 3 < 10 ∧ 3 ≤ 4 ∧ 4 ≤ 9 ∧ 9 ≤ 10 ∧ 0 ≤ 9 := by decide

/-- The last two pattern indices. -/
theorem witness_mask : 9 ≤ 9 ∧ 8 < 9 := by decide

theorem witness_halftone :
    sourceOk p23 = true ∧ 3 * p23.srcH.toNat * (3 * p23.srcW.toNat) ≤ p23.config.params.dstCap
    ∧ (∀ y < 2, ∀ x < 3, 1 ≤ lumAt p23 y x ∧ lumAt p23 y x ≤ 6)
    ∧ lumAt p23 0 0 = 1 ∧ lumAt p23 1 2 = 6 ∧ 1 ≠ 6 ∧ p23.srcH.toNat = 2 ∧ p23.srcW.toNat = 3 := by decide +kernel

theorem witness_halftone_domain_error :
    sourceOk gray11 = true ∧ 3 * gray11.srcH.toNat * (3 * gray11.srcW.toNat) ≤ gray11.config.params.dstCap
    ∧ ∀ y < 1, ∀ x < 1, ∀ y' < 1, ∀ x' < 1, lumAt gray11 y x = lumAt gray11 y' x' := by decide +kernel

/-- A grayscale and a colour source for the kernel operations and for every operation that keeps the size. -/
theorem witness_same_size :
    kernelIndex .motion = some 5
    ∧ (sourceOk g3 = true
      ∧ g3.srcH.toNat * g3.srcW.toNat * cfgDepth g3.srcCfg ≤ g3.config.params.dstCap)
    ∧ (sourceOk colour12 = true
      ∧ colour12.srcH.toNat * colour12.srcW.toNat * cfgDepth colour12.srcCfg ≤ colour12.config.params.dstCap) := by
  decide +kernel

theorem witness_mean_of_one_pixel :
    sourceOk colour11 = true
    ∧ colour11.srcH.toNat * colour11.srcW.toNat * cfgDepth colour11.srcCfg ≤ colour11.config.params.dstCap
    ∧ colour11.srcH.toNat = 1 ∧ colour11.srcW.toNat = 1 ∧ cfgDepth colour11.srcCfg = 3 := by decide +kernel

/-- Both formats. -/
theorem witness_identity :
    (sourceOk g3 = true ∧ g3.srcH.toNat * g3.srcW.toNat * cfgDepth g3.srcCfg ≤ g3.config.params.dstCap
      ∧ cfgFormat g3.srcCfg = .u8 ∧ 0 < sourceSize g3)
    ∧ (sourceOk (image 1 1 5 [255000]) = true ∧ cfgFormat (image 1 1 5 [255000]).srcCfg = .ym
      ∧ sourceSize (image 1 1 5 [255000]) = 1) := by decide +kernel

theorem witness_constant_channel :
    kernelIndex .xEdge = some 6 ∧ sourceOk colour11 = true
    ∧ colour11.srcH.toNat * colour11.srcW.toNat * cfgDepth colour11.srcCfg ≤ colour11.config.params.dstCap
    ∧ 2 < cfgDepth colour11.srcCfg ∧ ∀ y < 1, ∀ x < 1, srcAt colour11 y x 2 = 30 := by decide +kernel

theorem witness_downscale :
    sourceOk p23 = true
    ∧ (p23.srcH.toNat + 1) / 2 * ((p23.srcW.toNat + 1) / 2) * cfgDepth p23.srcCfg ≤ p23.config.params.dstCap
    ∧ 2 * 0 < p23.srcH.toNat ∧ 2 * 1 < p23.srcW.toNat := by decide +kernel

theorem witness_geometric_laws : Buffer.wellFormed ⟨2, 3, 1, .u8, .rgb, [1, 2, 3, 4, 5, 6]⟩ = true := by decide

/-- A busy state that meets the invariant, with a step. -/
theorem witness_invariant :
    RegistersHoldShapes heldNegate ∧ Inv heldNegate ∧ ∃ t, step heldNegate = .next t := by
  refine ⟨?_, ⟨?_, ?_, ?_, ?_⟩, _, rfl⟩
  · show 36864 < 2 ^ 32
    norm_num
  · unfold StatusLegal
    decide
  · intro h
    exact absurd h (by decide)
  · unfold MemoriesLegal
    decide
  · exact ⟨Or.inl ⟨rfl, rfl, rfl⟩, fun h => absurd h (by decide)⟩

theorem witness_parameters : ∃ t, step (scheduled [.host .reset] gray11) = .next t := ⟨_, rfl⟩

/-- Two states with the same source and different flags and destinations. -/
theorem witness_same_source :
    Instr.negate.wellFormed = true ∧ SameSource heldNegate { heldNegate with status := 0, dst := [(0, 9)] }
    ∧ heldNegate.status.getLsbD 2 = false
    ∧ ({ heldNegate with status := 0, dst := [(0, 9)] } : State).status.getLsbD 2 = false
    ∧ (∃ t, exec .negate heldNegate = .next t ∧ t.status.getLsbD 2 = false)
    ∧ ∃ t, exec .negate { heldNegate with status := 0, dst := [(0, 9)] } = .next t :=
  ⟨rfl, ⟨rfl, rfl, rfl, rfl, fun _ _ => rfl⟩, by decide, by decide, ⟨_, rfl, by decide +kernel⟩, _, rfl⟩

theorem witness_transactions_while_busy :
    isBusy heldNegate = true ∧ Transaction.reset ∉ [.srcWrite 0 1, .regRead 1] := by decide

/-- 30_encoding R90: an idle CORE that holds a result. -/
theorem witness_copyback :
    isBusy afterNegate = false ∧ DestinationHolds afterNegate
    ∧ (destBuffer afterNegate).size ≤ afterNegate.config.params.srcCap := by
  unfold DestinationHolds
  decide +kernel

end Sys2Proof.Tests
end

section
/-! The exact arithmetic of 00_scope section 5.1: the machine's integer forms are the rational ones. -/

namespace Sys2Proof.Machine

/-- `floor(N / D)` is `N div D` (00_scope R8). -/
theorem rat_floor_div (N : Int) (D : Nat) : ((N : ℚ) / (D : ℚ)).floor = floorDiv N D :=
  Rat.floor_intCast_div_natCast N D

/-- `ceil(N / D)` is `−((−N) div D)` (00_scope R8). -/
theorem rat_ceil_div (N : Int) (D : Nat) : ((N : ℚ) / (D : ℚ)).ceil = -floorDiv (-N) D := by
  rw [Rat.ceil_eq_neg_floor_neg, ← neg_div, ← Int.cast_neg, rat_floor_div]

/-- The fraction of `N / D` is `(N mod D) / D` (00_scope R8, R10). -/
theorem rat_fraction_div (N : Int) (D : Nat) (h : 0 < D) :
    (N : ℚ) / (D : ℚ) - (floorDiv N D : ℚ) = (modulo N D : ℚ) / (D : ℚ) := by
  have hD : (D : ℚ) ≠ 0 := by positivity
  have he : (floorDiv N D : ℚ) * D + modulo N D = N := by exact_mod_cast floorDiv_mul_add_modulo N D
  rw [← he]
  field_simp
  ring

/-- A number below 1 clips to 0 (00_scope R11). -/
theorem clip_of_nonpos {n : Int} (h : n ≤ 0) : clip n = 0 := by
  unfold clip
  split
  · rfl
  · rw [if_neg (by omega)]
    omega

/-- A number above 255 clips to 255 (00_scope R11). -/
theorem clip_of_gt {n : Int} (h : 255 < n) : clip n = 255 := by
  unfold clip
  rw [if_neg (by omega), if_pos h]

theorem truncRat_of_nonneg {q : ℚ} (h : 0 ≤ q) : truncRat q = q.floor := if_pos h

theorem truncRat_of_neg {q : ℚ} (h : q < 0) : truncRat q = -(-q).floor := if_neg (not_le.2 h)

/-- The integer form of `trunc` is the rational form (00_scope R9). -/
theorem trunc_eq_truncRat (N : Int) (D : Nat) (h : 0 < D) : trunc N D = truncRat ((N : ℚ) / (D : ℚ)) := by
  have hD : (0 : ℚ) < D := by exact_mod_cast h
  unfold trunc
  split
  · rename_i hN
    rw [truncRat_of_nonneg (div_nonneg (by exact_mod_cast hN) hD.le), rat_floor_div]
  · rename_i hN
    rw [truncRat_of_neg (div_neg_of_neg_of_pos (by exact_mod_cast not_le.1 hN) hD), ← neg_div, ← Int.cast_neg,
      rat_floor_div]

/-- Truncation and floor differ only below 0, where both clip to 0 (00_scope R9, R11). -/
theorem clip_trunc (N : Int) (D : Nat) (h : 0 < D) : clip (trunc N D) = clip (floorDiv N D) := by
  unfold trunc
  split
  · rfl
  · have hfloor : floorDiv N D ≤ 0 := floorDiv_le N 0 D h (by omega)
    have hneg : 0 ≤ floorDiv (-N) D := le_floorDiv (-N) 0 D h (by omega)
    rw [clip_of_nonpos hfloor, clip_of_nonpos (by omega)]

/-- `rnd` below a half (00_scope R10). -/
theorem rndRat_of_fraction_lt (tie : Tie) {q : ℚ} (h : q - q.floor < 1 / 2) : rndRat tie q = q.floor := if_pos h

/-- `rnd` above a half (00_scope R10). -/
theorem rndRat_of_fraction_gt (tie : Tie) {q : ℚ} (h : 1 / 2 < q - q.floor) : rndRat tie q = q.floor + 1 := by
  unfold rndRat
  dsimp only
  rw [if_neg (not_lt.2 h.le), if_pos h]

/-- `rnd` at a tie (00_scope R10). -/
theorem rndRat_of_fraction_eq (tie : Tie) {q : ℚ} (h : q - q.floor = 1 / 2) :
    rndRat tie q = roundTie tie q.floor := by
  unfold rndRat
  dsimp only
  rw [h, if_neg (lt_irrefl _), if_neg (lt_irrefl _)]

/-- The integer form of `rnd` is the rational form (00_scope R10). -/
theorem rnd_eq_rndRat (tie : Tie) (N : Int) (D : Nat) (h : 0 < D) : rnd tie N D = rndRat tie ((N : ℚ) / (D : ℚ)) := by
  have hD : (0 : ℚ) < D := by exact_mod_cast h
  have hlt : (modulo N D : ℚ) / D < 1 / 2 ↔ 2 * modulo N D < D := by
    rw [div_lt_div_iff₀ hD two_pos]
    norm_cast
    omega
  have hgt : (modulo N D : ℚ) / D > 1 / 2 ↔ 2 * modulo N D > D := by
    rw [gt_iff_lt, div_lt_div_iff₀ two_pos hD]
    norm_cast
    omega
  unfold rnd rndRat
  simp only [rat_floor_div, rat_fraction_div N D h, hlt, hgt]

theorem roundTie_even_mod_two (n : Int) : roundTie .even n % 2 = 0 := by
  unfold roundTie
  dsimp only
  split <;> omega

/-- `rnd(q)` is an integer nearest to `q` (00_scope R10). -/
theorem abs_rndRat_sub_le (tie : Tie) (q : ℚ) : |(rndRat tie q : ℚ) - q| ≤ 1 / 2 := by
  have h0 := Rat.floor_le q
  have h1 := Rat.lt_floor_add_one q
  push_cast at h1
  rw [abs_le]
  rcases lt_trichotomy (q - q.floor) (1 / 2) with h | h | h
  · rw [rndRat_of_fraction_lt tie h]
    constructor <;> linarith
  · rw [rndRat_of_fraction_eq tie h]
    rcases roundTie_cases tie q.floor with ht | ht
    · rw [ht]
      constructor <;> linarith
    · rw [ht]
      push_cast
      constructor <;> linarith
  · rw [rndRat_of_fraction_gt tie h]
    push_cast
    constructor <;> linarith

end Sys2Proof.Machine

namespace Sys2Proof

open Machine

/-- Settles O1: floor division is Lean's Euclidean division, which is the floor of the rational. -/
theorem floorDivisionAndRemainder : Obligations.FloorDivisionAndRemainder := by
  intro a n hn
  have hmod := floorDiv_mul_add_modulo a n
  have hnonneg := modulo_nonneg a n hn
  exact ⟨by omega, fun q hq => le_floorDiv a q n hn hq, rfl, hnonneg, modulo_lt a n hn, rat_floor_div a n,
    rat_ceil_div a n⟩

/-- Settles O2, by the rational form of truncation; clipping hides where it differs from the floor. -/
theorem truncationTowardZero : Obligations.TruncationTowardZero := by
  intro N D hD
  have hD' : (0 : ℚ) < D := by exact_mod_cast hD
  rw [trunc_eq_truncRat N D hD]
  refine ⟨fun hN => truncRat_of_nonneg (div_nonneg (by exact_mod_cast hN) hD'.le),
    fun hN => truncRat_of_neg (div_neg_of_neg_of_pos (by exact_mod_cast hN) hD'), ?_⟩
  rw [← trunc_eq_truncRat N D hD, rat_floor_div, clip_trunc N D hD]

/-- Settles O3: each clause is a fact about the rational form, which the integer form equals. -/
theorem roundingToNearest : Obligations.RoundingToNearest := by
  intro tie N D hD
  rw [rnd_eq_rndRat tie N D hD]
  refine ⟨rfl, abs_rndRat_sub_le tie _, rndRat_of_fraction_lt tie, rndRat_of_fraction_gt tie, fun hhalf => ?_⟩
  rw [rndRat_of_fraction_eq tie hhalf]
  constructor
  · rintro rfl
    exact roundTie_even_mod_two _
  · rintro rfl
    rfl

/-- Settles O4, by whether the number lies below, inside or above the byte range. -/
theorem clippingToByteRange : Obligations.ClippingToByteRange := by
  intro n
  rcases le_total n 0 with hlow | hlow
  · rw [clip_of_nonpos hlow]
    omega
  · rcases le_or_gt n 255 with hhigh | hhigh
    · rw [clip_of_mem n hlow hhigh]
      omega
    · rw [clip_of_gt hhigh]
      omega

end Sys2Proof
end

section
/-! The halftone encoder (43_halftone), over what any operation leaves behind when it succeeds and over the two inner
stages, grayscale (41) and range adjustment (42). -/

namespace Sys2Proof

open Machine Claims

/-- COMPLETE with a well-formed result meets the claims' description of it (20_memory R66). -/
theorem completed_completeOk {B : Buffer} (hB : B.wellFormed = true) (s : State) :
    Completed s (completeOk B s) B.h B.w B.d B.fmt B.chord where
  dstH := rfl
  dstW := rfl
  dstCfg := rfl
  busy := busyFlag_okStatus s.status
  done := doneFlag_okStatus s.status
  err := errFlag_okStatus s.status
  ecode := ecodeField_okStatus s.status
  rest a ha := by
    obtain ⟨_, _, _, _, hlen, _⟩ := (wellFormed_iff B).1 hB
    exact dstWord_completeOk_outside (hlen.trans_le ha)
  same :=
    { cmd := rfl, srcH := rfl, srcW := rfl, srcCfg := rfl, src := rfl, config := rfl, draws := rfl
      schedule := rfl, response := rfl
      wbusy := wbusyFlag_okStatus s.status
      reserved := fun j hj => statusBit_okStatus j s.status (by omega) }

/-- An operation whose source passes, whose result fits and whose function answers `B` completes with `B`. -/
theorem runOperation_completed {sh : Shape → Shape} {f : Config → Buffer → Except ErrorKind Buffer} {s : State}
    {B : Buffer} (hf : ResultLegal sh f) (hok : sourceOk s = true)
    (hfit : (sh (sourceBuffer s).shape).size ≤ s.config.params.dstCap) (hB : f s.config (sourceBuffer s) = .ok B) :
    ∃ t, runOperation sh f s = .next t ∧ Completed s t B.h B.w B.d B.fmt B.chord
      ∧ ∀ y x c, y < B.h → x < B.w → c < B.d → dstAt t B.w B.d y x c = B.sample y x c := by
  obtain ⟨hwf, _⟩ := hf _ _ _ (sourceBuffer_wellFormed s hok) hB
  refine ⟨completeOk B s, ?_, completed_completeOk hwf s,
    fun y x c hy hx hc => dstWord_completeOk_sample hwf s hy hx hc⟩
  rw [runOperation_checked hok hfit, hB]
  rfl

/-- A sample of the source buffer value, as the claims read it from `SRC` (20_memory R65). -/
theorem sourceBuffer_sample_eq_srcAt (s : State) {y x c : Nat} (hy : y < s.srcH.toNat) (hx : x < s.srcW.toNat)
    (hc : c < cfgDepth s.srcCfg) : (sourceBuffer s).sample y x c = srcAt s y x c :=
  sourceBuffer_sample s hy hx hc

/-- The raw samples of a buffer are its samples by position. -/
theorem mem_raw_iff_sample {B : Buffer} (hB : B.wellFormed = true) (r : Nat) :
    r ∈ B.raw ↔ ∃ y x c, y < B.h ∧ x < B.w ∧ c < B.d ∧ B.sample y x c = r := by
  obtain ⟨_, _, _, _, hlen, _⟩ := (wellFormed_iff B).1 hB
  constructor
  · intro hr
    obtain ⟨k, hk, rfl⟩ := List.getElem_of_mem hr
    obtain ⟨y, x, c, hy, hx, hc, rfl⟩ := exists_sampleIndex (hlen ▸ hk)
    refine ⟨y, x, c, hy, hx, hc, ?_⟩
    unfold Buffer.sample
    exact List.getD_eq_getElem _ _ hk
  · rintro ⟨y, x, c, hy, hx, hc, rfl⟩
    exact sample_mem hlen hy hx hc

/-- A raw sample below all others is the least (42 R111). -/
theorem rawMin_eq {B : Buffer} {m : Nat} (hm : m ∈ B.raw) (hle : ∀ r ∈ B.raw, m ≤ r) : rawMin B = m :=
  le_antisymm (rawMin_le hm) (hle _ (rawMin_mem (List.ne_nil_of_mem hm)))

/-- A raw sample above all others is the greatest (42 R111). -/
theorem rawMax_eq {B : Buffer} {m : Nat} (hm : m ∈ B.raw) (hle : ∀ r ∈ B.raw, r ≤ m) : rawMax B = m :=
  le_antisymm (hle _ (rawMax_mem (List.ne_nil_of_mem hm))) (le_rawMax hm)

/-! ### Grayscale (41) -/

@[simp] theorem gray_h (S : Buffer) : (gray S).h = S.h := congrArg Shape.h (gray_shape S)
@[simp] theorem gray_w (S : Buffer) : (gray S).w = S.w := congrArg Shape.w (gray_shape S)
@[simp] theorem gray_d (S : Buffer) : (gray S).d = 1 := congrArg Shape.d (gray_shape S)

theorem gray_chord (S : Buffer) : (gray S).chord = if S.d = 1 then S.chord else .rgb := by
  unfold gray
  split <;> rfl

/-- A sample of `Gray(S)` (41 R101). -/
theorem gray_sample {S : Buffer} {y x : Nat} (hy : y < S.h) (hx : x < S.w) :
    (gray S).sample y x 0 = if S.d = 1 then S.sample y x 0 else
      luminance (S.sample y x (redChannel S.chord)) (S.sample y x (greenChannel S.chord))
        (S.sample y x (blueChannel S.chord)) := by
  unfold gray
  split
  · rfl
  · exact tabulate_sample hy hx zero_lt_one

/-- The channel order bit of a configuration word (10_state R27, R31). -/
theorem cfgOrder_eq (cfg : Word) : cfgOrder cfg = if cfg.getLsbD 3 then .bgr else .rgb := by
  have hbit : bits cfg 3 3 = (cfg.getLsbD 3).toNat := by
    rw [← BitVec.testBit_toNat, Nat.toNat_testBit]
    rfl
  unfold cfgOrder
  rw [hbit]
  cases cfg.getLsbD 3 <;> rfl

theorem redChannel_cfgOrder (s : State) : redChannel (cfgOrder s.srcCfg) = redIndex s := by
  rw [cfgOrder_eq, apply_ite redChannel]
  rfl

theorem blueChannel_cfgOrder (s : State) : blueChannel (cfgOrder s.srcCfg) = blueIndex s := by
  rw [cfgOrder_eq, apply_ite blueChannel]
  rfl

theorem greenChannel_eq (o : ChannelOrder) : greenChannel o = 1 := by cases o <;> rfl

theorem redIndex_lt (s : State) : redIndex s < 3 := by
  unfold redIndex
  split <;> omega

theorem blueIndex_lt (s : State) : blueIndex s < 3 := by
  unfold blueIndex
  split <;> omega

/-- A sample of the grayscale source is the luminance raw the claims name (41 R101). -/
theorem gray_sample_eq_lumAt {s : State} (hok : sourceOk s = true) {y x : Nat} (hy : y < s.srcH.toNat)
    (hx : x < s.srcW.toNat) : (gray (sourceBuffer s)).sample y x 0 = lumAt s y x := by
  obtain ⟨hd, _⟩ := (wellFormed_iff _).1 (sourceBuffer_wellFormed s hok)
  rw [sourceBuffer_d] at hd
  have hsample : ∀ c < cfgDepth s.srcCfg, (sourceBuffer s).sample y x c = srcAt s y x c :=
    fun c hc => sourceBuffer_sample_eq_srcAt s hy hx hc
  rw [gray_sample hy hx, sourceBuffer_d]
  unfold lumAt
  split
  · exact hsample 0 (by omega)
  · have hd3 : cfgDepth s.srcCfg = 3 := by omega
    rw [hd3] at hsample
    rw [sourceBuffer_chord, redChannel_cfgOrder, blueChannel_cfgOrder,
      greenChannel_eq, hsample _ (redIndex_lt s), hsample 1 (by omega), hsample _ (blueIndex_lt s)]
    rfl

/-- The raw samples of the grayscale source are the luminances of its pixels. -/
theorem mem_gray_raw_iff {s : State} (hok : sourceOk s = true) (r : Nat) :
    r ∈ (gray (sourceBuffer s)).raw ↔ ∃ y x, y < s.srcH.toNat ∧ x < s.srcW.toNat ∧ lumAt s y x = r := by
  rw [mem_raw_iff_sample (gray_wellFormed (sourceBuffer_wellFormed s hok))]
  simp only [gray_h, gray_w, gray_d, sourceBuffer_h, sourceBuffer_w]
  constructor
  · rintro ⟨y, x, c, hy, hx, hc, rfl⟩
    obtain rfl : c = 0 := by omega
    exact ⟨y, x, hy, hx, (gray_sample_eq_lumAt hok hy hx).symm⟩
  · rintro ⟨y, x, hy, hx, rfl⟩
    exact ⟨y, x, 0, hy, hx, zero_lt_one, gray_sample_eq_lumAt hok hy hx⟩

theorem rawMin_gray_eq {s : State} (hok : sourceOk s = true) {lo : Nat}
    (hle : ∀ y x, y < s.srcH.toNat → x < s.srcW.toNat → lo ≤ lumAt s y x)
    (hlo : ∃ y x, y < s.srcH.toNat ∧ x < s.srcW.toNat ∧ lumAt s y x = lo) :
    rawMin (gray (sourceBuffer s)) = lo := by
  refine rawMin_eq ((mem_gray_raw_iff hok lo).2 hlo) fun r hr => ?_
  obtain ⟨y, x, hy, hx, rfl⟩ := (mem_gray_raw_iff hok r).1 hr
  exact hle y x hy hx

theorem rawMax_gray_eq {s : State} (hok : sourceOk s = true) {hi : Nat}
    (hle : ∀ y x, y < s.srcH.toNat → x < s.srcW.toNat → lumAt s y x ≤ hi)
    (hhi : ∃ y x, y < s.srcH.toNat ∧ x < s.srcW.toNat ∧ lumAt s y x = hi) :
    rawMax (gray (sourceBuffer s)) = hi := by
  refine rawMax_eq ((mem_gray_raw_iff hok hi).2 hhi) fun r hr => ?_
  obtain ⟨y, x, hy, hx, rfl⟩ := (mem_gray_raw_iff hok r).1 hr
  exact hle y x hy hx

/-! ### Range adjustment (42) -/

/-- `Adjust` succeeds on a grayscale buffer that is not constant (42 R111). -/
theorem exists_adjust_ok (tie : Tie) {S : Buffer} (newMin newMax : Nat) (hd : S.d = 1)
    (hne : rawMin S ≠ rawMax S) : ∃ A, adjust tie S newMin newMax = .ok A := by
  unfold adjust
  rw [if_neg (not_not.2 hd), if_neg hne]
  exact ⟨_, rfl⟩

/-- A sample of an adjusted buffer (42 R112). -/
theorem adjust_sample {tie : Tie} {S A : Buffer} {newMin newMax y x : Nat}
    (h : adjust tie S newMin newMax = .ok A) (hy : y < S.h) (hx : x < S.w) :
    A.sample y x 0 = adjustSample tie (rawMin S) (rawMax S) newMin newMax (S.sample y x 0) := by
  obtain ⟨_, _, rfl⟩ := adjust_ok h
  exact tabulate_sample hy hx zero_lt_one

/-- The integer form of an adjusted sample is the document's linear remap (42 R110, R112). -/
theorem adjustSample_eq_rndRat (tie : Tie) {rmin rmax : Nat} (newMin newMax v : Nat) (h : rmin < rmax) :
    adjustSample tie rmin rmax newMin newMax v
      = (rndRat tie (((v : ℚ) - rmin) * ((newMax : ℚ) - newMin) / ((rmax : ℚ) - rmin) + newMin)).toNat := by
  have hD : (rmax : ℚ) - rmin ≠ 0 := sub_ne_zero.2 (by exact_mod_cast h.ne')
  have hq : (adjustNumerator v rmin rmax newMin newMax : ℚ) / ((rmax - rmin : Nat) : ℚ)
      = ((v : ℚ) - rmin) * ((newMax : ℚ) - newMin) / ((rmax : ℚ) - rmin) + newMin := by
    unfold adjustNumerator
    push_cast [Nat.cast_sub h.le]
    field_simp
  unfold adjustSample
  rw [rnd_eq_rndRat _ _ _ (by omega), hq]

/-! ### Halftone (43) -/

/-- The index test never fires: indices adjusted to `0 .. 9` are at most 9 (43 R125), so `Halftone` succeeds whenever
its luminances are not all equal, with the tiles of the adjusted buffer (43 R124). -/
theorem exists_halftone_ok (c : Config) {S : Buffer} (hS : S.wellFormed = true)
    (hne : rawMin (gray S) ≠ rawMax (gray S)) :
    ∃ A, adjust c.params.tie (gray S) 0 9 = .ok A ∧ halftone c S = .ok (tiles c A) := by
  obtain ⟨A, hA⟩ := exists_adjust_ok c.params.tie 0 9 (gray_d S) hne
  have hidx : ¬(A.raw.any fun idx => decide (idx > 9)) = true := by
    simp only [List.any_eq_true, decide_eq_true_eq, not_exists, not_and, not_lt]
    exact fun idx hmem => (adjust_raw_bounds (gray_wellFormed hS) hA hmem).2
  refine ⟨A, hA, ?_⟩
  unfold halftone encodeTiles
  rw [hA]
  exact if_neg hidx

theorem tileCoordinate_add (y : Nat) (a : Fin 3) : tileCoordinate (3 * y + a) = a :=
  Fin.ext (by show (3 * y + a) % 3 = a; omega)

/-- A sample of the tiles: cell `(a, b)` of the mask of the pixel's index (43 R124). -/
theorem tiles_sample (c : Config) {A : Buffer} {y x : Nat} (a b : Fin 3) (hy : y < A.h) (hx : x < A.w) :
    (tiles c A).sample (3 * y + a) (3 * x + b) 0 = 255 * c.mask (A.sample y x 0) a b := by
  unfold tiles
  rw [tabulate_sample (by omega) (by omega) zero_lt_one, tileCoordinate_add, tileCoordinate_add,
    show (3 * y + a) / 3 = y by omega, show (3 * x + b) / 3 = x by omega]

/-- Settles O37: `Halftone` answers the tiles of the adjusted luminances, whose least and greatest are `lo` and
`hi`. -/
theorem halftoneResult : Obligations.HalftoneResult := by
  intro s lo hi hok hfit hbounds hlo hhi hne
  have hmin := rawMin_gray_eq hok (fun y x hy hx => (hbounds y x hy hx).1) hlo
  have hmax := rawMax_gray_eq hok (fun y x hy hx => (hbounds y x hy hx).2) hhi
  have hlt : lo < hi := by
    obtain ⟨y, x, hy, hx, rfl⟩ := hlo
    exact lt_of_le_of_ne (hbounds y x hy hx).2 hne
  obtain ⟨A, hA, htiles⟩ := exists_halftone_ok s.config (sourceBuffer_wellFormed s hok) (by rwa [hmin, hmax])
  obtain ⟨t, hexec, hcompleted, hdst⟩ :=
    runOperation_completed halftone_legal hok (by simpa [Shape.tripled, Shape.size, Buffer.shape] using hfit) htiles
  obtain ⟨hAh, hAw, hAchord⟩ : A.h = s.srcH.toNat ∧ A.w = s.srcW.toNat
      ∧ A.chord = if cfgDepth s.srcCfg = 1 then cfgOrder s.srcCfg else .rgb := by
    obtain ⟨_, _, rfl⟩ := adjust_ok hA
    exact ⟨gray_h _, gray_w _, gray_chord _⟩
  rw [← hAh, ← hAw, ← hAchord]
  refine ⟨t, hexec, hcompleted, fun y x a b hy hx => ?_⟩
  have hindex : A.sample y x 0
      = (rndRat s.config.params.tie (((lumAt s y x : ℚ) - lo) * 9 / ((hi : ℚ) - lo))).toNat := by
    have hy' := hAh ▸ hy
    have hx' := hAw ▸ hx
    rw [adjust_sample hA (by simpa using hy') (by simpa using hx'), hmin, hmax, gray_sample_eq_lumAt hok hy' hx',
      adjustSample_eq_rndRat _ _ _ _ hlt]
    simp
  rw [← hindex, ← tiles_sample s.config a b hy hx]
  exact hdst _ _ 0 (show 3 * y + a < 3 * A.h by omega) (show 3 * x + b < 3 * A.w by omega) zero_lt_one

end Sys2Proof
end

section
/-! Every operation in its shared form (20_memory R67, 60_exceptions R186): its result has the size of the table, it fails
by `DomainError` only, and its result is a function of the parameters and the source buffer value (10_state R25, R36). -/

namespace Sys2Proof

open Machine Claims

theorem kernelOperation_wellFormed {fn : Nat} {i : Instr} (h : kernelOperation fn = .ok i) : i.wellFormed = true := by
  unfold kernelOperation at h
  split at h <;> cases h <;> rfl

theorem plainOperation_wellFormed {opc : Nat} {i : Instr} (h : plainOperation opc = .ok i) : i.wellFormed = true := by
  unfold plainOperation at h
  split at h <;> cases h <;> rfl

/-- The decoder reads each immediate from an 8-bit field (30_encoding R84). -/
theorem immediateFits_bits (w : Word) (lo : Nat) : Instr.immediateFits (bits w (lo + 7) lo) = true := by
  have h : bits w (lo + 7) lo < 2 ^ (lo + 7 + 1 - lo) := Nat.mod_lt _ (by positivity)
  rw [show lo + 7 + 1 - lo = 8 by omega] at h
  exact decide_eq_true (by omega)

/-- The decoder gives well-formed operations only (30_encoding R84, R86). -/
theorem decode_wellFormed {w : Word} {i : Instr} (h : decode w = .ok i) : i.wellFormed = true := by
  unfold decode at h
  split at h
  · split at h
    · cases h
    · split at h
      · cases h
      · exact kernelOperation_wellFormed h
  · split at h
    · split at h
      · cases h
      · cases h
        exact Bool.and_eq_true_iff.2 ⟨immediateFits_bits w 8, immediateFits_bits w 16⟩
    · split at h
      · cases h
      · exact plainOperation_wellFormed h

/-- `sh` and `f` are what the operation `i` runs: a function that keeps to the shape of 20_memory R67 and whose only error
is `DomainError` (60_exceptions R182). -/
structure Meaning (i : Instr) (sh : Shape → Shape) (f : Config → Buffer → Except ErrorKind Buffer) : Prop where
  legal  : ResultLegal sh f
  domain : ∀ c S e, S.wellFormed = true → f c S = .error e → e = .domain
  size   : ∀ p, (sh p).size = resultSize i p.h p.w p.d
  runs   : ∀ s, exec i s = runOperation sh f s

/-- The meaning of an operation whose function answers a buffer for every source. -/
theorem Meaning.of_total {i : Instr} {sh : Shape → Shape} {g : Config → Buffer → Buffer}
    (hlegal : ResultLegal sh fun c S => .ok (g c S)) (hsize : ∀ p, (sh p).size = resultSize i p.h p.w p.d)
    (hruns : ∀ s, exec i s = runOperation sh (fun c S => .ok (g c S)) s) :
    Meaning i sh fun c S => .ok (g c S) :=
  ⟨hlegal, fun _ _ _ _ h => (nomatch h), hsize, hruns⟩

theorem adjust_error {tie : Tie} {S : Buffer} {newMin newMax : Nat} {e : ErrorKind}
    (h : adjust tie S newMin newMax = .error e) : e = .domain := by
  unfold adjust at h
  split at h
  · cases h
    rfl
  · split at h <;> cases h
    rfl

/-- `halftone` fails in its adjusting stage only: its index test never fires (43 R125). -/
theorem halftone_error {c : Config} {S : Buffer} {e : ErrorKind} (hS : S.wellFormed = true)
    (h : halftone c S = .error e) : e = .domain := by
  by_cases hne : rawMin (gray S) = rawMax (gray S)
  · have hA : adjust c.params.tie (gray S) 0 9 = .error .domain := by simp [adjust, hne]
    unfold halftone at h
    rw [hA] at h
    cases h
    rfl
  · obtain ⟨A, _, hok⟩ := exists_halftone_ok c hS hne
    rw [hok] at h
    cases h

/-- Every well-formed operation has a meaning in the shared form. -/
theorem exists_meaning (i : Instr) (hi : i.wellFormed = true) : ∃ sh f, Meaning i sh f := by
  cases i with
  | grayscale => exact ⟨_, _, .of_total gray_legal (fun _ => rfl) fun _ => rfl⟩
  | adjust a b =>
    simp only [Instr.wellFormed, Instr.immediateFits, Bool.and_eq_true, decide_eq_true_eq] at hi
    exact ⟨_, _, adjust_legal a b hi.1 hi.2, fun _ _ _ _ => adjust_error, fun _ => rfl, fun _ => rfl⟩
  | halftone => exact ⟨_, _, halftone_legal, fun _ _ _ => halftone_error, fun _ => rfl, fun _ => rfl⟩
  | rot90 => exact ⟨_, _, .of_total rot90_legal (fun _ => rfl) fun _ => rfl⟩
  | rotm90 => exact ⟨_, _, .of_total rotm90_legal (fun _ => rfl) fun _ => rfl⟩
  | rot180 => exact ⟨_, _, .of_total rot180_legal (fun _ => rfl) fun _ => rfl⟩
  | horFlip => exact ⟨_, _, .of_total horFlip_legal (fun _ => rfl) fun _ => rfl⟩
  | vertFlip => exact ⟨_, _, .of_total vertFlip_legal (fun _ => rfl) fun _ => rfl⟩
  | downscale => exact ⟨_, _, .of_total downscale_legal (fun _ => rfl) fun _ => rfl⟩
  | negate => exact ⟨_, _, .of_total negate_legal (fun _ => rfl) fun _ => rfl⟩
  | _ => exact ⟨_, _, .of_total (convolve_legal _) (fun _ => rfl) fun _ => rfl⟩

/-- What the evaluation of an operation can answer: `ShapeError`, `DomainError`, or a well-formed buffer of the size of
20_memory R67 that fits. -/
theorem Meaning.evalOperation_cases {i : Instr} {sh : Shape → Shape} {f : Config → Buffer → Except ErrorKind Buffer}
    (hm : Meaning i sh f) (s : State) :
    evalOperation sh f s = .error .shape ∨ evalOperation sh f s = .error .domain
    ∨ ∃ B, evalOperation sh f s = .ok B ∧ B.wellFormed = true ∧ B.size = resultSizeIn i s
        ∧ B.size ≤ s.config.params.dstCap := by
  unfold evalOperation
  cases hok : sourceOk s
  · exact .inl rfl
  · by_cases hfit : (sh (sourceBuffer s).shape).size > s.config.params.dstCap
    · exact .inl (by simp [hfit])
    · have hS := sourceBuffer_wellFormed s hok
      rw [if_neg (by simp), if_neg hfit]
      cases hf : f s.config (sourceBuffer s) with
      | error e => exact .inr (.inl (congrArg _ (hm.domain _ _ _ hS hf)))
      | ok B =>
        obtain ⟨hwf, hshape⟩ := hm.legal _ _ _ hS hf
        have hsize : B.size = (sh (sourceBuffer s).shape).size := congrArg Shape.size hshape
        exact .inr (.inr ⟨B, rfl, hwf, hsize.trans (hm.size _), by omega⟩)

/-- The two ways an operation completes (20_memory R66). -/
theorem exec_cases {i : Instr} {s t : State} (hi : i.wellFormed = true) (h : exec i s = .next t) :
    (∃ e : ErrorKind, e.code ≤ 2 ∧ t = completeErr e s)
    ∨ ∃ B : Buffer, B.wellFormed = true ∧ B.size ≤ s.config.params.dstCap ∧ t = completeOk B s := by
  obtain ⟨sh, f, hm⟩ := exists_meaning i hi
  rw [hm.runs, runOperation] at h
  cases h
  rcases hm.evalOperation_cases s with he | he | ⟨B, he, hwf, _, hfit⟩
  · exact .inl ⟨.shape, by decide, by rw [he]; rfl⟩
  · exact .inl ⟨.domain, by decide, by rw [he]; rfl⟩
  · exact .inr ⟨B, hwf, hfit, by rw [he]; rfl⟩

theorem exists_exec (i : Instr) (s : State) : ∃ t, exec i s = .next t := by
  cases i <;> exact ⟨_, rfl⟩

/-! ### The source buffer value decides -/

theorem Claims.SameSource.sourceSize_eq {s s' : State} (h : SameSource s s') : sourceSize s' = sourceSize s := by
  unfold sourceSize
  rw [h.srcH, h.srcW, h.srcCfg]

theorem Claims.SameSource.sourceBuffer_eq {s s' : State} (h : SameSource s s') : sourceBuffer s' = sourceBuffer s := by
  unfold sourceBuffer
  rw [h.sourceSize_eq, h.srcH, h.srcW, h.srcCfg]
  congr 1
  exact List.map_congr_left fun k hk => congrArg BitVec.toNat (h.words k (List.mem_range.1 hk))

theorem Claims.SameSource.sourceOk_eq {s s' : State} (h : SameSource s s') : sourceOk s' = sourceOk s := by
  have hdescriptor : descriptorOk s' = descriptorOk s := by
    unfold descriptorOk
    rw [h.sourceSize_eq, h.srcH, h.srcW, h.srcCfg, h.config]
  have hsamples : samplesOk s' = samplesOk s := by
    rw [Bool.eq_iff_iff, samplesOk_iff, samplesOk_iff, h.sourceSize_eq, h.srcCfg]
    exact forall₂_congr fun k hk => by rw [h.words k hk]
  unfold sourceOk
  rw [hdescriptor, hsamples]

theorem Claims.SameSource.evalOperation_eq {s s' : State} (h : SameSource s s') (sh : Shape → Shape)
    (f : Config → Buffer → Except ErrorKind Buffer) : evalOperation sh f s' = evalOperation sh f s := by
  unfold evalOperation
  rw [h.sourceOk_eq, h.sourceBuffer_eq, h.config]

/-- From two states with the same source an operation completes with one and the same result, which has the size of
20_memory R67. -/
theorem exec_sameSource {i : Instr} {s s' : State} (hi : i.wellFormed = true) (h : SameSource s s') :
    ∃ r, exec i s = .next (complete r s) ∧ exec i s' = .next (complete r s')
      ∧ ∀ B, r = .ok B → B.raw.length = resultSizeIn i s := by
  obtain ⟨sh, f, hm⟩ := exists_meaning i hi
  refine ⟨evalOperation sh f s, hm.runs s, ?_, fun B hB => ?_⟩
  · rw [hm.runs, runOperation, h.evalOperation_eq]
  · rcases hm.evalOperation_cases s with he | he | ⟨B', he, hwf, hsize, _⟩
    · exact nomatch hB.symm.trans he
    · exact nomatch hB.symm.trans he
    · cases hB.symm.trans he
      obtain ⟨_, _, _, _, hlen, _⟩ := (wellFormed_iff B).1 hwf
      exact hlen.trans hsize

/-- Settles O52: both states complete with the same result, whose words are the only ones the statement compares. -/
theorem resultDependsOnSourceOnly : Obligations.ResultDependsOnSourceOnly := by
  intro i s s' t t' hi hsame herr herr' ht ht'
  obtain ⟨r, hr, hr', hlen⟩ := exec_sameSource hi hsame
  cases hr.symm.trans ht
  cases hr'.symm.trans ht'
  cases r with
  | error e =>
    have hset : ∀ u, (complete (.error e) u).status.getLsbD 2 = true := fun u => errFlag_errStatus e u.status
    refine ⟨(hset s').trans (hset s).symm, fun _ => ?_, fun hclear => absurd (hset s) (Bool.eq_false_iff.1 hclear)⟩
    exact (ecodeField_errStatus e s'.status).trans (ecodeField_errStatus e s.status).symm
  | ok B =>
    have hclear : (complete (.ok B) s).status.getLsbD 2 = false := (errFlag_okStatus s.status).trans herr
    have hclear' : (complete (.ok B) s').status.getLsbD 2 = false := (errFlag_okStatus s'.status).trans herr'
    refine ⟨hclear'.trans hclear.symm, fun hset => absurd hset (Bool.eq_false_iff.1 hclear),
      fun _ => ⟨rfl, rfl, rfl, fun k hk => ?_⟩⟩
    have hk' : k < B.raw.length := (hlen B rfl).symm ▸ hk
    exact (dstWord_completeOk_inside hk').trans (dstWord_completeOk_inside hk').symm

end Sys2Proof
end

section
/-! The invariant (10_state R24, R25, R32 to R35), kept by each thing a step can do. -/

namespace Sys2Proof

open Machine

/-! ### STATUS stays legal -/

theorem StatusLegal.withWbusy {st : Word} (h : StatusLegal st) (b : Bool) : StatusLegal (withWbusy b st) := by
  obtain ⟨hreserved, hflags⟩ := h
  rw [reserved_zero_iff] at hreserved
  refine ⟨(reserved_zero_iff _).2 fun j hj => ?_, by simpa using hflags⟩
  unfold Machine.withWbusy
  rw [statusBit_withStatusBit _ _ _ _ (by omega), if_neg (by omega), hreserved j hj]

theorem StatusLegal.start {st : Word} (h : StatusLegal st) : StatusLegal (startStatus st) := by
  obtain ⟨hreserved, _⟩ := h
  rw [reserved_zero_iff] at hreserved
  refine ⟨(reserved_zero_iff _).2 fun j hj => ?_, by simp⟩
  rw [statusBit_startStatus _ _ (by omega) (by omega), hreserved j hj]

/-- In a busy state `DONE`, `ERR` and `ECODE` are 0 (10_state R25, log 9). -/
theorem StatusLegal.of_busy {st : Word} (h : StatusLegal st) (hbusy : busyFlag st = true) :
    doneFlag st = false ∧ errFlag st = false ∧ ecodeField st = 0 := by
  obtain ⟨_, hdone, herr, _, hcode, _⟩ := h
  have he : errFlag st = false := by simpa [hbusy] using herr
  exact ⟨by simpa [hbusy] using hdone, he, by simpa [he] using hcode⟩

theorem StatusLegal.ok {st : Word} (h : StatusLegal st) (hbusy : busyFlag st = true) : StatusLegal (okStatus st) := by
  obtain ⟨_, herr, hcode⟩ := h.of_busy hbusy
  obtain ⟨hreserved, _⟩ := h
  rw [reserved_zero_iff] at hreserved
  refine ⟨(reserved_zero_iff _).2 fun j hj => ?_, by simp [herr, hcode]⟩
  rw [statusBit_okStatus _ _ (by omega), hreserved j hj]

theorem StatusLegal.error {st : Word} (h : StatusLegal st) (hbusy : busyFlag st = true) {e : ErrorKind}
    (he : e.code ≤ 4) : StatusLegal (errStatus e st) := by
  obtain ⟨hdone, _, _⟩ := h.of_busy hbusy
  obtain ⟨hreserved, _⟩ := h
  rw [reserved_zero_iff] at hreserved
  refine ⟨(reserved_zero_iff _).2 fun j hj => ?_, by simp [hdone, he, e.code_pos.ne']⟩
  rw [statusBit_errStatus _ _ _ (by omega) (by omega) (by omega), hreserved j hj]

/-! ### Each event keeps the invariant -/

/-- A state with zero registers and nothing listed in its memories meets the invariant (10_state R33). -/
theorem inv_of_zero {s : State} (hcmd : s.cmd = 0) (hstatus : s.status = 0) (hdst : DestinationEmpty s)
    (hsrcMem : s.src = []) (hdstMem : s.dst = []) : Inv s := by
  refine ⟨?_, fun _ _ _ => ⟨hcmd, hdst⟩, ?_, .inl hdst, fun hdone => ?_⟩
  · rw [hstatus]
    unfold StatusLegal
    decide
  · unfold MemoriesLegal
    rw [hsrcMem, hdstMem]
    exact ⟨rfl, rfl, rfl, rfl⟩
  · rw [hstatus] at hdone
    exact absurd hdone (by decide)

theorem Inv.withWbusy {s : State} (h : Inv s) (b : Bool) : Inv { s with status := withWbusy b s.status } := by
  obtain ⟨hstatus, hfresh, hmem, hdst⟩ := h
  refine ⟨hstatus.withWbusy b, ?_, hmem, ?_⟩
  · simpa [FreshLegal] using hfresh
  · have hdone : doneFlag (Machine.withWbusy b s.status) = doneFlag s.status := doneFlag_withWbusy b s.status
    exact ⟨hdst.1, fun hd => hdst.2 (hdone.symm.trans hd)⟩

theorem Inv.start {s : State} (h : Inv s) (v : Word) : Inv (start v s) := by
  obtain ⟨hstatus, _, hmem, hdst, _⟩ := h
  refine ⟨hstatus.start, fun hidle => ?_, hmem, hdst, fun hdone => ?_⟩
  · simp at hidle
  · simp at hdone

theorem Inv.writeSrc {s : State} (h : Inv s) {a : Nat} (ha : a < s.config.params.srcCap) (v : Word) :
    Inv (writeSrc a v s) := by
  obtain ⟨hstatus, hfresh, ⟨hsrc, hdst, hsrcIn, hdstIn⟩, hdest⟩ := h
  exact ⟨hstatus, hfresh,
    ⟨Memory.wf_write a v _ hsrc, hdst, Memory.within_write _ a v _ ha hsrcIn, hdstIn⟩, hdest⟩

/-- Every host transaction keeps the invariant (20_memory R52 to R58, 70 R210). -/
theorem Inv.perform {s : State} (h : Inv s) (tr : Transaction) : Inv (perform tr s) := by
  show Inv (transactionEffect tr s)
  rcases transactionEffect_cases tr s with
    he | ⟨_, he⟩ | ⟨_, v, _, he⟩ | ⟨_, he⟩ | ⟨_, v, he⟩ | ⟨_, v, he⟩ | ⟨_, v, he⟩ | ⟨_, a, v, ha, he⟩ | ⟨_, he⟩ <;>
    rw [he]
  · exact h
  · exact h.withWbusy true
  · exact h.start v
  · exact h.withWbusy false
  · exact h
  · exact h
  · exact h
  · exact h.writeSrc ha v
  · exact inv_of_zero rfl rfl ⟨rfl, rfl, rfl⟩ rfl rfl

/-- Error entry keeps the invariant, for the four codes that occur (60_exceptions R180, R188). -/
theorem Inv.completeErr {s : State} (h : Inv s) (hbusy : isBusy s = true) {e : ErrorKind} (he : e.code ≤ 4) :
    Inv (completeErr e s) := by
  obtain ⟨hstatus, _, hmem, hdst, _⟩ := h
  obtain ⟨hdone, _, _⟩ := hstatus.of_busy hbusy
  refine ⟨hstatus.error hbusy he, fun _ _ herr => ?_, hmem, hdst, fun hd => ?_⟩
  · simp at herr
  · simp [hdone] at hd

theorem dims_le_size {B : Buffer} (hB : B.wellFormed = true) : B.h ≤ B.size ∧ B.w ≤ B.size := by
  obtain ⟨hd, hh, hw, _⟩ := (wellFormed_iff B).1 hB
  have hle : B.h * B.w ≤ B.size := Nat.le_mul_of_pos_right _ (by omega)
  exact ⟨(Nat.le_mul_of_pos_right _ hw).trans hle, (Nat.le_mul_of_pos_left _ hh).trans hle⟩

/-- After COMPLETE with a result that fits, the destination holds it (10_state R32, 20_memory R66, R67). -/
theorem destinationHolds_completeOk {s : State} {B : Buffer} (hshapes : RegistersHoldShapes s)
    (hB : B.wellFormed = true) (hfit : B.size ≤ s.config.params.dstCap) : DestinationHolds (completeOk B s) := by
  unfold RegistersHoldShapes at hshapes
  obtain ⟨hh, hw⟩ := dims_le_size hB
  obtain ⟨hd, _⟩ := (wellFormed_iff B).1 hB
  obtain ⟨_, _, _, hreserved⟩ := cfgOf_fields B.d (by omega) B.fmt B.chord
  refine ⟨hreserved, ?_⟩
  rw [destBuffer_completeOk hB s (by omega) (by omega)]
  exact ⟨hB, hfit⟩

/-- COMPLETE with a well-formed result that fits keeps the invariant (20_memory R66, R67). -/
theorem Inv.completeOk {s : State} (h : Inv s) (hshapes : RegistersHoldShapes s) (hbusy : isBusy s = true)
    {B : Buffer} (hB : B.wellFormed = true) (hfit : B.size ≤ s.config.params.dstCap) : Inv (completeOk B s) := by
  obtain ⟨hstatus, _, ⟨hsrc, hdst, hsrcIn, hdstIn⟩, _⟩ := h
  obtain ⟨_, _, _, _, hlen, _⟩ := (wellFormed_iff B).1 hB
  have hrun : 0 + (B.raw.map zext32).length ≤ s.config.params.dstCap := by
    rw [List.length_map, Nat.zero_add, hlen]
    exact hfit
  have hholds := destinationHolds_completeOk hshapes hB hfit
  refine ⟨hstatus.ok hbusy, fun _ hdone => ?_,
    ⟨hsrc, Memory.wf_writeRun _ 0 _ hdst, hsrcIn, Memory.within_writeRun _ _ 0 _ hrun hdstIn⟩,
    .inr hholds, fun _ => hholds⟩
  simp at hdone

/-- A held operation keeps the invariant. -/
theorem Inv.exec {s t : State} (h : Inv s) (hshapes : RegistersHoldShapes s) (hbusy : isBusy s = true) {i : Instr}
    (hi : i.wellFormed = true) (ht : exec i s = .next t) : Inv t := by
  rcases exec_cases hi ht with ⟨e, he, rfl⟩ | ⟨B, hB, hfit, rfl⟩
  · exact h.completeErr hbusy (by omega)
  · exact h.completeOk hshapes hbusy hB hfit

theorem lookupError_code_le (e : DecodeError) : (lookupError e).code ≤ 4 := by cases e <;> decide

/-! ### The parameters -/

theorem transactionEffect_config (tr : Transaction) (s : State) : (transactionEffect tr s).config = s.config := by
  rcases transactionEffect_cases tr s with
    he | ⟨_, he⟩ | ⟨_, v, _, he⟩ | ⟨_, he⟩ | ⟨_, v, he⟩ | ⟨_, v, he⟩ | ⟨_, v, he⟩ | ⟨_, a, v, _, he⟩ | ⟨_, he⟩ <;>
    rw [he] <;> rfl

/-- Settles O51: neither a transaction nor COMPLETE writes the parameters. -/
theorem parametersNeverChange : Obligations.ParametersNeverChange := by
  intro s t h
  rcases step_cases h with ⟨tr, _, _, rfl⟩ | ⟨_, _, rfl⟩ | ⟨_, _, e, _, rfl⟩ | ⟨_, _, i, hd, hexec⟩
  · exact transactionEffect_config tr (popped s)
  · rfl
  · rfl
  · rcases exec_cases (decode_wellFormed hd) hexec with ⟨e, _, rfl⟩ | ⟨B, _, _, rfl⟩ <;> rfl

/-! ### Reset, steps and runs -/

/-- Settles O5, field by field. -/
theorem resetStateRegisters : Obligations.ResetStateRegisters :=
  ⟨rfl, rfl, rfl, rfl, rfl, rfl, rfl, rfl, fun _ => ⟨rfl, rfl⟩⟩

/-- Settles O48: the reset state has zero registers and nothing listed in its memories. -/
theorem resetMeetsInvariant : Obligations.ResetMeetsInvariant := by
  refine ⟨inv_of_zero rfl rfl ⟨rfl, rfl, rfl⟩ rfl rfl, ?_⟩
  unfold RegistersHoldShapes
  decide

/-- Settles O49, by the four things a step can do. -/
theorem stepKeepsInvariant : Obligations.StepKeepsInvariant := by
  intro s t hshapes hinv h
  have hconfig := parametersNeverChange s t h
  refine ⟨?_, by rwa [RegistersHoldShapes, hconfig]⟩
  have hpopped : Inv (popped s) := hinv
  rcases step_cases h with ⟨tr, _, _, rfl⟩ | ⟨_, _, rfl⟩ | ⟨_, hbusy, e, _, rfl⟩ | ⟨_, hbusy, i, hd, hexec⟩
  · exact hpopped.perform tr
  · exact hpopped
  · exact hpopped.completeErr hbusy (lookupError_code_le e)
  · exact hpopped.exec hshapes hbusy (decode_wellFormed hd) hexec

/-- The engine's turn never stops the machine (20_memory R59, 60_exceptions R188). -/
theorem exists_engineTurn (s : State) : ∃ t, engineTurn s = .next t := by
  cases hbusy : isBusy s
  · exact ⟨_, engineTurn_idle hbusy⟩
  · cases hd : decode s.cmd with
    | error e => exact ⟨_, engineTurn_lookupError hbusy hd⟩
    | ok i =>
      rw [engineTurn_decoded hbusy hd]
      exact exists_exec i s

/-- No state stops the machine (20_memory R59, 60_exceptions R188). -/
theorem exists_step (s : State) : ∃ t, step s = .next t := by
  rcases host_or_engine s with ⟨tr, rest, hs⟩ | hs
  · exact ⟨_, step_host hs⟩
  · rw [step_engine hs]
    exact exists_engineTurn _

/-- What every step keeps holds after any number of steps. -/
theorem run_keeps {P : State → Prop} (hstep : ∀ s t, P s → step s = .next t → P t) (k : Nat) {s : State} (h : P s) :
    ∃ t, Host.Core.run core k s = .next t ∧ P t := by
  induction k generalizing s with
  | zero => exact ⟨s, rfl, h⟩
  | succ k ih =>
    obtain ⟨t, ht⟩ := exists_step s
    rw [run_next ht]
    exact ih (hstep s t h ht)

/-- Settles O50: the machine always has a next state, and every step keeps the invariant. -/
theorem everyRunIsSafe : Obligations.EveryRunIsSafe := by
  intro s hshapes hinv k
  obtain ⟨t, hrun, ht, _⟩ := run_keeps (P := fun u => Inv u ∧ RegistersHoldShapes u)
    (fun u v hu => stepKeepsInvariant u v hu.2 hu.1) k ⟨hinv, hshapes⟩
  exact ⟨t, hrun, ht⟩

end Sys2Proof
end

section
/-! Host transactions between START and COMPLETE (20_memory R52, R69 (c)): states that differ in `WBUSY` and the last
returned word only. -/

namespace Sys2Proof

open Machine Claims

/-- `u` differs from `s` at most in `WBUSY` and in what the last transaction returned. -/
structure SameButWbusy (s u : State) : Prop where
  rest : u = { s with status := u.status, response := u.response }
  bits : ∀ j, j ≠ 3 → statusBit j u.status = statusBit j s.status

theorem SameButWbusy.refl (s : State) : SameButWbusy s s := ⟨rfl, fun _ _ => rfl⟩

theorem SameButWbusy.trans {s u v : State} (h : SameButWbusy s u) (h' : SameButWbusy u v) : SameButWbusy s v where
  rest := by rw [h'.rest, h.rest]
  bits j hj := (h'.bits j hj).trans (h.bits j hj)

theorem SameButWbusy.isBusy_eq {s u : State} (h : SameButWbusy s u) : isBusy u = isBusy s := h.bits 0 (by decide)

theorem SameButWbusy.cmd_eq {s u : State} (h : SameButWbusy s u) : u.cmd = s.cmd := by rw [h.rest]

/-- A write that is dropped sets `WBUSY` only (20_memory R52). -/
theorem sameButWbusy_dropBusyWrite (s : State) : SameButWbusy s (dropBusyWrite s) where
  rest := rfl
  bits j hj := by
    rw [dropBusyWrite_status, withWbusy, statusBit_withStatusBit _ _ _ _ (by omega), if_neg hj]

/-- While busy a transaction other than `Reset` changes at most `WBUSY` and `response` (20_memory R52). -/
theorem sameButWbusy_perform {s : State} {tr : Transaction} (hbusy : isBusy s = true) (htr : tr ≠ .reset) :
    SameButWbusy s (perform tr s) := by
  have heffect : SameButWbusy s (transactionEffect tr s) := by
    rcases transactionEffect_cases tr s with he | ⟨_, he⟩ | ⟨hidle, _⟩ | ⟨hidle, _⟩ | ⟨hidle, _⟩ | ⟨hidle, _⟩
      | ⟨hidle, _⟩ | ⟨hidle, _⟩ | ⟨hreset, _⟩
    · rw [he]
      exact .refl s
    · rw [he]
      exact sameButWbusy_dropBusyWrite s
    iterate 6 exact absurd hbusy (Bool.eq_false_iff.1 hidle)
    exact absurd hreset htr
  exact ⟨congrArg (fun u : State => { u with response := transactionReturns tr s }) heffect.rest, heffect.bits⟩

/-- Any transactions while busy, `Reset` apart, by induction on their list. -/
theorem sameButWbusy_foldl {s : State} {ts : List Transaction} (hbusy : isBusy s = true)
    (hts : Transaction.reset ∉ ts) : SameButWbusy s (ts.foldl (fun u tr => perform tr u) s) := by
  induction ts generalizing s with
  | nil => exact .refl s
  | cons tr ts ih =>
    rw [List.mem_cons, not_or] at hts
    have hfirst : SameButWbusy s (perform tr s) := sameButWbusy_perform hbusy (Ne.symm hts.1)
    exact hfirst.trans (ih (hfirst.isBusy_eq.trans hbusy) hts.2)

theorem SameButWbusy.sameSource {s u : State} (h : SameButWbusy s u) : SameSource s u := by
  rw [h.rest]
  exact ⟨rfl, rfl, rfl, rfl, fun _ _ => rfl⟩

theorem statusBit_okStatus_congr {j : Nat} {a b : Word} (h : statusBit j a = statusBit j b) :
    statusBit j (okStatus a) = statusBit j (okStatus b) := by
  simp [okStatus, withDone, withBusy, statusBit_withStatusBit, h]

theorem statusBit_errStatus_congr {j : Nat} {a b : Word} (e : ErrorKind) (h : statusBit j a = statusBit j b) :
    statusBit j (errStatus e a) = statusBit j (errStatus e b) := by
  simp [errStatus, withErr, withBusy, statusBit_withEcode, statusBit_withStatusBit, h]

/-- COMPLETE with one result keeps the difference to `WBUSY` and `response`. -/
theorem SameButWbusy.complete {s u : State} (h : SameButWbusy s u) (r : Except ErrorKind Buffer) :
    SameButWbusy (complete r s) (complete r u) := by
  cases r with
  | error e =>
    refine ⟨?_, fun j hj => statusBit_errStatus_congr e (h.bits j hj)⟩
    exact congrArg (completeErr e) h.rest
  | ok B =>
    refine ⟨?_, fun j hj => statusBit_okStatus_congr (h.bits j hj)⟩
    exact congrArg (completeOk B) h.rest

/-- The engine's turn in a busy state: the outcomes differ in `WBUSY` and `response` only. -/
theorem SameButWbusy.engineTurn {s u : State} (h : SameButWbusy s u) (hbusy : isBusy s = true) :
    ∃ t t', engineTurn s = .next t ∧ engineTurn u = .next t' ∧ SameButWbusy t t' := by
  have hbusy' := h.isBusy_eq.trans hbusy
  cases hd : decode s.cmd with
  | error e =>
    exact ⟨_, _, engineTurn_lookupError hbusy hd, engineTurn_lookupError hbusy' (h.cmd_eq ▸ hd),
      h.complete (.error _)⟩
  | ok i =>
    rw [engineTurn_decoded hbusy hd, engineTurn_decoded hbusy' (h.cmd_eq ▸ hd)]
    obtain ⟨r, hs, hu, _⟩ := exec_sameSource (decode_wellFormed hd) h.sameSource
    exact ⟨_, _, hs, hu, h.complete r⟩

/-- Settles O53: the transactions change at most `WBUSY` and `response`, and COMPLETE keeps it so. -/
theorem transactionsWhileBusyDoNotMatter : Obligations.TransactionsWhileBusyDoNotMatter := by
  intro s ts hbusy hts
  have hsame := sameButWbusy_foldl hbusy hts
  obtain ⟨t, t', ht, ht', hout⟩ := hsame.engineTurn hbusy
  exact ⟨t, t', ht, ht', hsame.rest, hsame.isBusy_eq.trans hbusy, hout.rest, hout.bits⟩

end Sys2Proof
end

section
/-! COMPLETE of any operation, and the engine's steps (20_memory R66, R68, 60_exceptions R186, R188). -/

namespace Sys2Proof

open Machine Claims

/-! ### The frame of COMPLETE -/

/-- Error entry meets the claims' description of it (60_exceptions R188). -/
theorem failed_completeErr (e : ErrorKind) (s : State) : Failed s (completeErr e s) e.code where
  busy := busyFlag_errStatus e s.status
  done := doneFlag_errStatus e s.status
  err := errFlag_errStatus e s.status
  ecode := ecodeField_errStatus e s.status
  dstH := rfl
  dstW := rfl
  dstCfg := rfl
  dst := rfl
  same :=
    { cmd := rfl, srcH := rfl, srcW := rfl, srcCfg := rfl, src := rfl, config := rfl, draws := rfl
      schedule := rfl, response := rfl
      wbusy := wbusyFlag_errStatus e s.status
      reserved := fun j hj => statusBit_errStatus j e s.status (by omega) (by omega) (by omega) }

/-- An operation fails, or completes with a result of the size of 20_memory R67. -/
theorem exec_failed_or_completed {i : Instr} {s t : State} (hi : i.wellFormed = true) (h : exec i s = .next t) :
    (∃ e : ErrorKind, Failed s t e.code)
    ∨ ∃ B : Buffer, Completed s t B.h B.w B.d B.fmt B.chord ∧ B.size = resultSizeIn i s := by
  obtain ⟨sh, f, hm⟩ := exists_meaning i hi
  rw [hm.runs, runOperation] at h
  cases h
  rcases hm.evalOperation_cases s with he | he | ⟨B, he, hwf, hsize, _⟩ <;> rw [he]
  · exact .inl ⟨_, failed_completeErr .shape s⟩
  · exact .inl ⟨_, failed_completeErr .domain s⟩
  · exact .inr ⟨B, completed_completeOk hwf s, hsize⟩

/-- A failed command leaves every word of the destination memory as it was. -/
theorem Claims.Failed.dstWord_eq {s t : State} {code : Nat} (h : Failed s t code) (a : Nat) :
    dstWord t a = dstWord s a := by
  unfold dstWord
  rw [h.dst, h.same.draws]

/-- Settles O28, by the two ways an operation completes. -/
theorem operationFrame : Obligations.OperationFrame := by
  intro i s t hi ht
  rcases exec_failed_or_completed hi ht with ⟨e, hfailed⟩ | ⟨B, hok, hsize⟩
  · refine ⟨hfailed.same, hfailed.busy, fun a _ => hfailed.dstWord_eq a, .inr ?_, fun hdone _ => ?_⟩
    · rwa [hfailed.ecode]
    · rw [hfailed.err, hfailed.done, hdone]
      rfl
  · refine ⟨hok.same, hok.busy, fun a ha => hok.rest a ?_, .inl ⟨hok.done, hok.err, hok.ecode⟩, fun _ herr => ?_⟩
    · exact hsize.trans_le ha
    · rw [hok.err, hok.done, herr]
      rfl

/-! ### The engine's turn and the schedule -/

/-- COMPLETE of any operation leaves the engine idle and the schedule alone. -/
theorem exec_idle {i : Instr} {s t : State} (hi : i.wellFormed = true) (h : exec i s = .next t) :
    isBusy t = false ∧ t.schedule = s.schedule := by
  obtain ⟨hsame, hidle, _⟩ := operationFrame i s t hi h
  exact ⟨hidle, hsame.schedule⟩

theorem transactionEffect_schedule (tr : Transaction) (s : State) :
    (transactionEffect tr s).schedule = s.schedule := by
  rcases transactionEffect_cases tr s with
    he | ⟨_, he⟩ | ⟨_, v, _, he⟩ | ⟨_, he⟩ | ⟨_, v, he⟩ | ⟨_, v, he⟩ | ⟨_, v, he⟩ | ⟨_, a, v, _, he⟩ | ⟨_, he⟩ <;>
    rw [he] <;> rfl

/-- A step takes one event off the schedule and adds none. -/
theorem step_schedule {s t : State} (h : step s = .next t) : t.schedule = s.schedule.tail := by
  rcases step_cases h with ⟨tr, _, _, rfl⟩ | ⟨_, _, rfl⟩ | ⟨_, _, e, _, rfl⟩ | ⟨_, _, i, hd, hexec⟩
  · exact transactionEffect_schedule tr (popped s)
  · rfl
  · rfl
  · exact (exec_idle (decode_wellFormed hd) hexec).2

/-- The engine's turn leaves the CORE idle, busy or not before it (20_memory R66). -/
theorem step_engine_idle {s t : State} (hnext : engineNext s) (h : step s = .next t) : isBusy t = false := by
  rcases step_cases h with ⟨_, _, hhost, _⟩ | ⟨_, hidle, rfl⟩ | ⟨_, _, e, _, rfl⟩ | ⟨_, _, i, hd, hexec⟩
  · rcases hnext with hnil | ⟨_, hengine⟩
    · exact nomatch hnil.symm.trans hhost
    · exact nomatch hengine.symm.trans hhost
  · exact hidle
  · exact busyFlag_errStatus _ _
  · exact (exec_idle (decode_wellFormed hd) hexec).1

/-- Settles O54, by induction on the schedule: each step shortens it, and with nothing left the engine has its turn. -/
theorem engineEventuallyCompletes : Obligations.EngineEventuallyCompletes := by
  intro s
  generalize hevents : s.schedule = events
  induction events generalizing s with
  | nil =>
    obtain ⟨t, ht⟩ := exists_step s
    refine ⟨t, run_next ht 0, step_engine_idle (.inl hevents) ht, ?_⟩
    rw [step_schedule ht, hevents]
    rfl
  | cons event rest ih =>
    obtain ⟨t, ht⟩ := exists_step s
    have hrest : t.schedule = rest := by
      rw [step_schedule ht, hevents]
      rfl
    rw [List.length_cons, run_next ht]
    exact ih t hrest

/-! ### One step -/

theorem popped_of_cons {s : State} {event : Event} {rest : List Event} (h : s.schedule = event :: rest) :
    popped s = { s with schedule := rest } := by
  unfold popped
  rw [h]
  rfl

theorem popped_of_nil {s : State} (h : s.schedule = []) : popped s = s := by
  unfold popped
  rw [h, List.tail_nil, ← h]

/-- The engine's turn named by the schedule. -/
theorem step_of_engine {s : State} {rest : List Event} (h : s.schedule = .engine :: rest) :
    step s = engineTurn { s with schedule := rest } := by
  rw [step_engine (.inr ⟨rest, h⟩), popped_of_cons h]

/-- The engine's turn when nothing is scheduled (log 4). -/
theorem step_of_nil {s : State} (h : s.schedule = []) : step s = engineTurn s := by
  rw [step_engine (.inl h), popped_of_nil h]

/-- Settles O24: both forms of the engine's turn run the held command. -/
theorem stepRunsDecodedOperation : Obligations.StepRunsDecodedOperation := by
  intro s rest i hbusy hd
  constructor
  · intro hs
    rw [step_of_engine hs]
    exact engineTurn_decoded hbusy hd
  · intro hs
    rw [step_of_nil hs]
    exact engineTurn_decoded hbusy hd

theorem lookupError_code (e : DecodeError) : (lookupError e).code = if e = .unknownKernel then 3 else 4 := by
  cases e <;> rfl

/-- A held word that does not decode fails with its lookup error (30_encoding R86, 60_exceptions R183, R184). -/
theorem engineTurn_lookupError_failed {s : State} {e : DecodeError} (hbusy : isBusy s = true)
    (hd : decode s.cmd = .error e) :
    ∃ t, engineTurn s = .next t ∧ Failed s t (if e = .unknownKernel then 3 else 4) := by
  rw [← lookupError_code]
  exact ⟨_, engineTurn_lookupError hbusy hd, failed_completeErr _ s⟩

/-- Settles O25, one lemma about the engine's turn or the transaction for each clause. -/
theorem stepOtherwise : Obligations.StepOtherwise := by
  intro s rest
  refine ⟨fun e hbusy hd hs => ?_, fun e hbusy hd hs => ?_, fun tr hs => ?_, fun hidle hs => ?_, fun hidle hs => ?_⟩
  · rw [step_of_engine hs]
    exact engineTurn_lookupError_failed hbusy hd
  · rw [step_of_nil hs]
    exact engineTurn_lookupError_failed hbusy hd
  · rw [step_host hs, popped_of_cons hs]
  · rw [step_of_engine hs]
    exact engineTurn_idle hidle
  · rw [step_of_nil hs]
    exact engineTurn_idle hidle

/-- Settles O26: neither a transaction nor the engine's turn can stop the machine. -/
theorem everyStepAnswersNext : Obligations.EveryStepAnswersNext := exists_step

/-- The decoder reads back the command word of a well-formed operation (30_encoding R80 to R84). -/
theorem decode_encode {i : Instr} (hi : i.wellFormed = true) : decode (encode i) = .ok i := by
  cases i with
  | adjust newMin newMax =>
    obtain ⟨hopcode, harg0, harg1, hreserved⟩ := Laws.Encoding.adjust newMin newMax hi
    have hclass : bits (encode (.adjust newMin newMax)) 7 4 ≠ 0x1 := by
      simp only [bits, Instr.opcode] at hopcode ⊢
      omega
    unfold decode
    rw [if_neg hclass, if_pos (show _ = 0x02 from hopcode), if_neg (not_not.2 hreserved), harg0, harg1]
    rfl
  | _ => rfl

/-- The command word that `withFetchWord` starts from the number of a word is that word (log 7). -/
theorem zext32_toNat_mod (w : Word) : zext32 (w.toNat % 2 ^ 32) = w := by
  rw [Nat.mod_eq_of_lt w.isLt]
  exact BitVec.eq_of_toNat_eq (zext32_toNat w.isLt)

/-- Settles O27: the started state is busy, the engine is next, and the word decodes to the operation. -/
theorem fetchedWordRuns : Obligations.FetchedWordRuns := by
  intro s i hi
  have hstep : step (s.withFetchWord 32 (encode i).toNat) = engineTurn (start (encode i) s) := by
    rw [step_of_engine (rest := s.schedule) rfl, State.withFetchWord, zext32_toNat_mod]
    rfl
  rw [hstep]
  exact engineTurn_decoded (busyFlag_startStatus s.status) (decode_encode hi)

end Sys2Proof
end

section
/-! The host port (20_memory R52 to R58) and the source check (R62). -/

namespace Sys2Proof

open Machine

/-! ### Writes while busy -/

/-- The three transactions that write (20_memory R51). -/
def IsWrite (t : Transaction) : Prop :=
  (∃ n v, t = .regWrite n v) ∨ (∃ a v, t = .srcWrite a v) ∨ (∃ a v, t = .dstWrite a v)

/-- While busy every write is dropped (20_memory R52). -/
theorem transactionEffect_write_busy {s : State} {t : Transaction} (hbusy : isBusy s = true) (ht : IsWrite t) :
    transactionEffect t s = dropBusyWrite s := by
  rcases ht with ⟨n, v, rfl⟩ | ⟨a, v, rfl⟩ | ⟨a, v, rfl⟩ <;> exact if_pos hbusy

theorem transactionReturns_write {t : Transaction} (ht : IsWrite t) (s : State) : transactionReturns t s = none := by
  rcases ht with ⟨n, v, rfl⟩ | ⟨a, v, rfl⟩ | ⟨a, v, rfl⟩ <;> rfl

/-- A write while busy sets `WBUSY`, keeps every other bit of STATUS and changes no other field (20_memory R52). -/
theorem perform_write_busy {s : State} {t : Transaction} (hbusy : isBusy s = true) (ht : IsWrite t) :
    wbusyFlag (perform t s).status = true
    ∧ (∀ j, j ≠ 3 → (perform t s).status.getLsbD j = s.status.getLsbD j)
    ∧ perform t s = { s with status := (perform t s).status, response := none } := by
  have hperform : perform t s = { dropBusyWrite s with response := none } := by
    unfold perform
    rw [transactionEffect_write_busy hbusy ht, transactionReturns_write ht]
  rw [hperform]
  exact ⟨wbusyFlag_withWbusy true s.status, (sameButWbusy_dropBusyWrite s).bits, rfl⟩

/-- Only register 1 reads STATUS. -/
theorem readRegister_withStatus {n : Nat} (hn : n ≠ 1) (st : Word) (s : State) :
    readRegister n { s with status := st } = readRegister n s := by
  unfold readRegister
  split
  case h_2 => exact absurd rfl hn
  all_goals rfl

/-- Settles O9: writes are dropped, and no register but STATUS and no memory word depends on `BUSY`. -/
theorem busyWriteIsDropped : Obligations.BusyWriteIsDropped := by
  intro s t hbusy
  refine ⟨perform_write_busy hbusy, ?_⟩
  rintro (⟨a, rfl⟩ | ⟨a, rfl⟩ | ⟨n, hn, rfl⟩) st
  · rfl
  · rfl
  · exact congrArg some (readRegister_withStatus hn st s)

/-! ### Reads -/

/-- A read changes nothing but the model's `response` (20_memory R55, R57, R58, log 6). -/
theorem perform_read {t : Transaction} (ht : (∃ n, t = .regRead n) ∨ (∃ a, t = .srcRead a) ∨ (∃ a, t = .dstRead a))
    (s : State) : perform t s = { s with response := (perform t s).response } := by
  rcases ht with ⟨n, rfl⟩ | ⟨a, rfl⟩ | ⟨a, rfl⟩ <;> rfl

/-- Settles O12, by whether the address lies below the capacity. -/
theorem sourceReadReturns : Obligations.SourceReadReturns := by
  intro s a
  exact ⟨fun hin => congrArg some (if_pos hin), fun hout => congrArg some (if_neg (not_lt.2 hout)),
    perform_read (.inr (.inl ⟨a, rfl⟩)) s⟩

/-- `DstWrite` while idle has no effect (20_memory R57). -/
theorem perform_dstWrite_idle {s : State} (hidle : isBusy s = false) (a : Nat) (v : Word) :
    perform (.dstWrite a v) s = { s with response := none } := by
  simp [perform, transactionEffect, transactionReturns, dstWrite, hidle]

/-- Settles O14: the reads as for the source memory, the writes by whether the engine is busy. -/
theorem destinationAccess : Obligations.DestinationAccess := by
  intro s a v
  exact ⟨fun hin => congrArg some (if_pos hin), fun hout => congrArg some (if_neg (not_lt.2 hout)),
    perform_read (.inr (.inr ⟨a, rfl⟩)) s, fun hidle => perform_dstWrite_idle hidle a v,
    fun hbusy => perform_write_busy hbusy (.inr (.inr ⟨a, v, rfl⟩))⟩

/-- The defined bits of STATUS, read (10_state R24, 20_memory R58). -/
theorem and_statusMask_bit (st : Word) (j : Nat) :
    (st &&& statusMask).getLsbD j = (st.getLsbD j && decide (j ≤ 3 ∨ 8 ≤ j ∧ j ≤ 10)) := by
  rw [BitVec.getLsbD_and]
  by_cases hj : j < 32
  · rw [statusMask_bit j hj]
  · rw [BitVec.getLsbD_of_ge st j (by omega), Bool.false_and, Bool.false_and]

theorem dstCfgMask_bit : ∀ j < 32, dstCfgMask.getLsbD j = decide (j ≤ 3) := by decide

/-- The defined bits of `DST_CFG`, read (10_state R29, 20_memory R58). -/
theorem and_dstCfgMask_bit (cfg : Word) (j : Nat) :
    (cfg &&& dstCfgMask).getLsbD j = (cfg.getLsbD j && decide (j ≤ 3)) := by
  rw [BitVec.getLsbD_and]
  by_cases hj : j < 32
  · rw [dstCfgMask_bit j hj]
  · rw [BitVec.getLsbD_of_ge cfg j (by omega), Bool.false_and, Bool.false_and]

/-- A register number of 8 or more reads 0 (20_memory R58). -/
theorem readRegister_of_ge {n : Nat} (hn : 8 ≤ n) (s : State) : readRegister n s = 0 := by
  obtain ⟨k, rfl⟩ := Nat.exists_eq_add_of_le' hn
  rfl

/-- Settles O15: the two masked registers bit by bit, the others by definition. -/
theorem registerReadReturns : Obligations.RegisterReadReturns := by
  intro s n
  exact ⟨rfl, perform_read (.inl ⟨n, rfl⟩) s, rfl, rfl, rfl, rfl, rfl, rfl, and_statusMask_bit s.status,
    and_dstCfgMask_bit s.dstCfg, fun hn => readRegister_of_ge hn s⟩

/-! ### Writes while idle -/

/-- `RegWrite` while idle is the write by register number (20_memory R56). -/
theorem perform_regWrite_idle {s : State} (hidle : isBusy s = false) (n : Nat) (v : Word) :
    perform (.regWrite n v) s = { regWriteIdle n v s with response := none } := by
  simp [perform, transactionEffect, transactionReturns, regWrite, hidle]

/-- Settles O10: START sets its fields, and the engine is then busy, so every later write is dropped. -/
theorem startHoldsCommand : Obligations.StartHoldsCommand := by
  intro s v hidle
  have hstart : perform (.regWrite 0 v) s = { start v s with response := none } := perform_regWrite_idle hidle 0 v
  rw [hstart]
  refine ⟨rfl, busyFlag_startStatus s.status, doneFlag_startStatus s.status, errFlag_startStatus s.status,
    ecodeField_startStatus s.status, wbusyFlag_startStatus s.status, rfl, fun t ht => perform_read ht _,
    fun t ht => ?_⟩
  have hbusy : isBusy { start v s with response := none } = true := busyFlag_startStatus s.status
  obtain ⟨hwbusy, hbits, hrest⟩ := perform_write_busy hbusy ht
  exact ⟨hrest, hwbusy, hbits⟩

/-- A written bit 3 clears `WBUSY` (10_state R24, 20_memory R56). -/
theorem wbusyFlag_writeStatus (v : Word) (s : State) :
    wbusyFlag (writeStatus v s).status = (wbusyFlag s.status && !v.getLsbD 3) := by
  unfold writeStatus
  cases v.getLsbD 3
  · exact (Bool.and_true _).symm
  · exact (wbusyFlag_withWbusy false s.status).trans (Bool.and_false _).symm

/-- A write to STATUS changes no bit but `WBUSY` and no other field (20_memory R56). -/
theorem sameButWbusy_writeStatus (v : Word) (s : State) : SameButWbusy s (writeStatus v s) := by
  rcases writeStatus_cases v s with h | h <;> rw [h]
  · exact .refl s
  · refine ⟨rfl, fun j hj => ?_⟩
    exact (statusBit_withStatusBit 3 j false s.status (by omega)).trans (if_neg hj)

/-- A register number of 5 or more names nothing a host can write (20_memory R56). -/
theorem regWriteIdle_of_ge {n : Nat} (hn : 5 ≤ n) (v : Word) (s : State) : regWriteIdle n v s = s := by
  obtain ⟨k, rfl⟩ := Nat.exists_eq_add_of_le' hn
  rfl

/-- Settles O13, by register number. -/
theorem registerWriteByNumber : Obligations.RegisterWriteByNumber := by
  intro s n v hidle
  rw [perform_regWrite_idle hidle]
  refine ⟨?_, ?_, ?_, ?_, ?_, fun hn => by rw [regWriteIdle_of_ge hn]⟩ <;> rintro rfl
  · rfl
  · have hsame := sameButWbusy_writeStatus v s
    exact ⟨wbusyFlag_writeStatus v s, hsame.bits,
      congrArg (fun u : State => { u with response := none }) hsame.rest⟩
  · rfl
  · rfl
  · rfl

/-- `MemWrite(SRC, a, v)`, seen at every address (00_scope R15). -/
theorem srcWord_writeSrc (a b : Nat) (v : Word) (s : State) :
    srcWord (writeSrc a v s) b = if b = a then v else srcWord s b := by
  unfold srcWord
  rw [writeSrc_src, writeSrc_draws, Memory.find_write]
  split <;> rfl

/-- `SrcWrite` while idle (20_memory R54). -/
theorem perform_srcWrite_idle {s : State} (hidle : isBusy s = false) (a : Nat) (v : Word) :
    perform (.srcWrite a v) s
      = { (if a < s.config.params.srcCap then writeSrc a v s else s) with response := none } := by
  simp [perform, transactionEffect, transactionReturns, srcWrite, hidle]

/-- Settles O11, by whether the address lies below the capacity. -/
theorem sourceWriteStores : Obligations.SourceWriteStores := by
  intro s a v hidle
  rw [perform_srcWrite_idle hidle]
  constructor
  · intro hin
    rw [if_pos hin]
    exact ⟨(srcWord_writeSrc a a v s).trans (if_pos rfl),
      fun b hb => (srcWord_writeSrc a b v s).trans (if_neg hb), rfl⟩
  · intro hout
    rw [if_neg (not_lt.2 hout)]

/-! ### The source check -/

/-- The reserved field of a configuration word, as a number (10_state R27). -/
theorem cfgReserved_eq (cfg : Word) : cfgReserved cfg = cfg.toNat / 16 := by
  have hlt := cfg.isLt
  unfold cfgReserved bits
  omega

/-- The depth field of a configuration word, as a number (10_state R27). -/
theorem cfgDepth_eq (cfg : Word) : cfgDepth cfg = cfg.toNat % 4 := by
  unfold cfgDepth bits
  omega

/-- The format bit of a configuration word (10_state R27, R30). -/
theorem cfgFormat_eq (cfg : Word) : cfgFormat cfg = if cfg.getLsbD 2 then .ym else .u8 := by
  have hbit : bits cfg 2 2 = (cfg.getLsbD 2).toNat := by
    rw [← BitVec.testBit_toNat, Nat.toNat_testBit]
    rfl
  unfold cfgFormat
  rw [hbit]
  cases cfg.getLsbD 2 <;> rfl

theorem cfgFormat_eq_ym_iff (cfg : Word) : cfgFormat cfg = .ym ↔ cfg.getLsbD 2 = true := by
  rw [cfgFormat_eq]
  cases cfg.getLsbD 2 <;> decide

/-- The greatest legal raw sample of a format (20_memory R62 (6)). -/
theorem rawLimit_eq (cfg : Word) : 255 * (cfgFormat cfg).scale = if cfg.getLsbD 2 then 255000 else 255 := by
  rw [cfgFormat_eq]
  cases cfg.getLsbD 2 <;> rfl

/-- Settles O16: the check's tests, each read on the raw register words. -/
theorem sourceCheckIsSixTests : Obligations.SourceCheckIsSixTests := by
  intro s
  unfold sourceOk
  rw [Bool.and_eq_true, descriptorOk_iff, samplesOk_iff, rawLimit_eq, cfgReserved_eq, cfgFormat_eq_ym_iff,
    sourceSize, cfgDepth_eq]
  simp only [and_assoc]

end Sys2Proof
end

section
/-! The command word (30_encoding): decoder, encoder, opcode table, and the lines that assemble. -/

namespace Sys2Proof

open Machine

/-! ### Fields of a word -/

/-- A word is its four bytes (30_encoding R80). -/
theorem word_ext_bytes {w v : Word} (h0 : bits w 7 0 = bits v 7 0) (h1 : bits w 15 8 = bits v 15 8)
    (h2 : bits w 23 16 = bits v 23 16) (h3 : bits w 31 24 = bits v 31 24) : w = v := by
  have hw := w.isLt
  have hv := v.isLt
  simp only [bits] at h0 h1 h2 h3
  exact BitVec.eq_of_toNat_eq (by omega)

/-- A field of a masked word is the masked field. -/
theorem bits_and (w m : Word) (hi lo : Nat) : bits (w &&& m) hi lo = bits w hi lo &&& bits m hi lo := by
  unfold bits
  rw [BitVec.toNat_and, Nat.and_div_two_pow, Nat.and_mod_two_pow]

/-- Masking with ones keeps a byte. -/
theorem bits_and_byte (w : Word) (lo : Nat) : bits w (lo + 7) lo &&& 255 = bits w (lo + 7) lo := by
  have hlt : bits w (lo + 7) lo ≤ 255 := of_decide_eq_true (immediateFits_bits w lo)
  rw [show 255 = 2 ^ 8 - 1 from rfl, Nat.and_two_pow_sub_one_eq_mod, Nat.mod_eq_of_lt (by omega)]

theorem args_le_of_wellFormed {i : Instr} (hi : i.wellFormed = true) : i.arg0 ≤ 255 ∧ i.arg1 ≤ 255 := by
  cases i with
  | adjust newMin newMax =>
    obtain ⟨hmin, hmax⟩ := Bool.and_eq_true_iff.1 hi
    exact ⟨of_decide_eq_true hmin, of_decide_eq_true hmax⟩
  | _ => exact ⟨Nat.zero_le _, Nat.zero_le _⟩

/-! ### The decoder's operation, and its word -/

/-- The three ways a word decodes to an operation (30_encoding R86). -/
theorem decode_ok_cases {w : Word} {i : Instr} (h : decode w = .ok i) :
    (bits w 7 4 = 0x1 ∧ bits w 31 8 = 0 ∧ kernelOperation (bits w 3 0) = .ok i)
    ∨ (bits w 7 0 = 0x02 ∧ bits w 31 24 = 0 ∧ i = .adjust (bits w 15 8) (bits w 23 16))
    ∨ (bits w 31 8 = 0 ∧ plainOperation (bits w 7 0) = .ok i) := by
  unfold decode at h
  split at h
  case isTrue hclass =>
    split at h
    · cases h
    · split at h
      · cases h
      · exact .inl ⟨hclass, by omega, h⟩
  case isFalse =>
    split at h
    case isTrue hopcode =>
      split at h
      · cases h
      · cases h
        exact .inr (.inl ⟨hopcode, by omega, rfl⟩)
    case isFalse =>
      split at h
      · cases h
      · exact .inr (.inr ⟨by omega, h⟩)

/-- A kernel operation has the opcode of its function and no operands (30_encoding R83). -/
theorem kernelOperation_fields {fn : Nat} {i : Instr} (h : kernelOperation fn = .ok i) :
    i.opcode = 0x10 + fn ∧ i.arg0 = 0 ∧ i.arg1 = 0 := by
  unfold kernelOperation at h
  split at h <;> cases h <;> exact ⟨rfl, rfl, rfl⟩

/-- An operation of class 0 or 2, `adjust` apart, has its opcode and no operands (30_encoding R82). -/
theorem plainOperation_fields {opc : Nat} {i : Instr} (h : plainOperation opc = .ok i) :
    i.opcode = opc ∧ i.arg0 = 0 ∧ i.arg1 = 0 := by
  unfold plainOperation at h
  split at h <;> cases h <;> exact ⟨rfl, rfl, rfl⟩

/-- The fields of a word that decodes are those of the operation (30_encoding R80 to R84). -/
theorem decode_fields {w : Word} {i : Instr} (h : decode w = .ok i) :
    bits w 7 0 = i.opcode ∧ bits w 15 8 = i.arg0 ∧ bits w 23 16 = i.arg1 ∧ bits w 31 24 = 0 := by
  rcases decode_ok_cases h with ⟨hclass, hhigh, hkernel⟩ | ⟨hopcode, hreserved, rfl⟩ | ⟨hhigh, hplain⟩
  · obtain ⟨hopcode, harg0, harg1⟩ := kernelOperation_fields hkernel
    rw [hopcode, harg0, harg1]
    simp only [bits] at hclass hhigh ⊢
    omega
  · exact ⟨hopcode, rfl, rfl, hreserved⟩
  · obtain ⟨hopcode, harg0, harg1⟩ := plainOperation_fields hplain
    rw [hopcode, harg0, harg1]
    refine ⟨rfl, ?_⟩
    simp only [bits] at hhigh ⊢
    omega

/-- A word that decodes is the command word of its operation (30_encoding R82, R86). -/
theorem encode_decode {w : Word} {i : Instr} (h : decode w = .ok i) : encode i = w := by
  obtain ⟨harg0, harg1⟩ := args_le_of_wellFormed (decode_wellFormed h)
  obtain ⟨e0, e1, e2, e3⟩ := Laws.Encoding.fields_of_fit harg0 harg1
  obtain ⟨w0, w1, w2, w3⟩ := decode_fields h
  exact word_ext_bytes (e0.trans w0.symm) (e1.trans w1.symm) (e2.trans w2.symm) (e3.trans w3.symm)

/-- Settles O18: the decoder reads back the four fields that the encoder writes. -/
theorem decodeOfEncode : Obligations.DecodeOfEncode := fun _ => decode_encode

/-- Settles O19: the word and the operation's command word have the same four fields. -/
theorem encodeOfDecode : Obligations.EncodeOfDecode := fun _ _ h => ⟨decode_wellFormed h, encode_decode h⟩

/-- Settles O22, each word by evaluation. -/
theorem decodedWords : Obligations.DecodedWords := by
  unfold Obligations.DecodedWords
  decide

/-! ### The opcode table -/

/-- The row of the opcode table that an operation belongs to (30_encoding R82). -/
def Instr.opcodeRow (i : Instr) : OpcodeRow where
  mnemonic := i.mnemonic
  mask     := match i with
    | .adjust _ _ => 0xFF0000FF#32
    | _ => 0xFFFFFFFF#32
  pattern  := zext32 i.opcode

/-- Every operation has its row in the table (30_encoding R82). -/
theorem opcodeRow_mem (i : Instr) : i.opcodeRow ∈ opcodeTable := by
  cases i with
  | adjust newMin newMax => exact (by decide : (Instr.adjust 0 0).opcodeRow ∈ opcodeTable)
  | _ => decide

/-- The table has no row but those of the operations (30_encoding R82). -/
theorem exists_opcodeRow_eq : ∀ r ∈ opcodeTable, ∃ i ∈ Instr.adjust 0 0 :: plainInstrs, i.opcodeRow = r := by decide

/-- A row that masks nothing selects its pattern only. -/
theorem selects_iff_of_mask_allOnes {r : OpcodeRow} (hmask : r.mask = BitVec.allOnes 32) (w : Word) :
    r.selects w = true ↔ w = r.pattern := by
  rw [OpcodeRow.selects, hmask, BitVec.and_allOnes, beq_iff_eq]

/-- The row of `adjust` selects by `OPC` and `RSV`: its mask leaves the two immediates free (30_encoding R82). -/
theorem adjust_selects_iff (newMin newMax : Nat) (w : Word) :
    (Instr.adjust newMin newMax).opcodeRow.selects w = true ↔ bits w 7 0 = 0x02 ∧ bits w 31 24 = 0 := by
  have h0 : bits (w &&& 0xFF0000FF#32) 7 0 = bits w 7 0 := (bits_and ..).trans (bits_and_byte w 0)
  have h1 : bits (w &&& 0xFF0000FF#32) 15 8 = 0 := (bits_and ..).trans (Nat.and_zero _)
  have h2 : bits (w &&& 0xFF0000FF#32) 23 16 = 0 := (bits_and ..).trans (Nat.and_zero _)
  have h3 : bits (w &&& 0xFF0000FF#32) 31 24 = bits w 31 24 := (bits_and ..).trans (bits_and_byte w 24)
  rw [OpcodeRow.selects, beq_iff_eq]
  show w &&& 0xFF0000FF#32 = 0x00000002#32 ↔ _
  constructor
  · intro h
    rw [h] at h0 h3
    exact ⟨h0.symm, h3.symm⟩
  · rintro ⟨hopcode, hreserved⟩
    exact word_ext_bytes (h0.trans hopcode) h1 h2 (h3.trans hreserved)

/-- The row of an operation selects every word that decodes to it. -/
theorem opcodeRow_selects {w : Word} {i : Instr} (h : decode w = .ok i) : i.opcodeRow.selects w = true := by
  cases i with
  | adjust newMin newMax =>
    obtain ⟨hopcode, _, _, hreserved⟩ := decode_fields h
    exact (adjust_selects_iff newMin newMax w).2 ⟨hopcode, hreserved⟩
  | _ => exact (selects_iff_of_mask_allOnes rfl w).2 (encode_decode h).symm

/-- Opcode 2 with `RSV` zero is `adjust`, whatever its immediates (30_encoding R84, R86). -/
theorem decode_adjust {w : Word} (hopcode : bits w 7 0 = 0x02) (hreserved : bits w 31 24 = 0) :
    decode w = .ok (.adjust (bits w 15 8) (bits w 23 16)) := by
  have hclass : bits w 7 4 ≠ 0x1 := by
    simp only [bits] at hopcode ⊢
    omega
  unfold decode
  rw [if_neg hclass, if_pos hopcode, if_neg (not_not.2 hreserved)]

/-- A word selected by the row of an operation decodes to an operation of that row. -/
theorem exists_decode_of_selects {w : Word} {i : Instr} (h : i.opcodeRow.selects w = true) :
    ∃ j, decode w = .ok j ∧ j.opcodeRow = i.opcodeRow := by
  cases i with
  | adjust newMin newMax =>
    obtain ⟨hopcode, hreserved⟩ := (adjust_selects_iff newMin newMax w).1 h
    exact ⟨_, decode_adjust hopcode hreserved, rfl⟩
  | _ =>
    obtain rfl := (selects_iff_of_mask_allOnes rfl w).1 h
    exact ⟨_, rfl, rfl⟩

/-- A row of the table selects a word exactly when the word decodes to an operation of that row (30_encoding R82). -/
theorem selects_iff_decode {r : OpcodeRow} (hr : r ∈ opcodeTable) (w : Word) :
    r.selects w = true ↔ ∃ i, decode w = .ok i ∧ i.opcodeRow = r := by
  constructor
  · obtain ⟨i, _, rfl⟩ := exists_opcodeRow_eq r hr
    exact exists_decode_of_selects
  · rintro ⟨i, hd, rfl⟩
    exact opcodeRow_selects hd

/-- Settles O20: a row selects the words that decode to its operations, and a word decodes to one operation. -/
theorem decoderAgreesWithOpcodeTable : Obligations.DecoderAgreesWithOpcodeTable := by
  intro w
  refine ⟨fun i hd => ⟨i.opcodeRow, opcodeRow_mem i, opcodeRow_selects hd, rfl⟩, fun r hr hsel => ?_,
    fun r hr r' hr' hsel hsel' => ?_⟩
  · obtain ⟨i, hd, rfl⟩ := (selects_iff_decode hr w).1 hsel
    exact ⟨i, hd, rfl⟩
  · obtain ⟨i, hd, rfl⟩ := (selects_iff_decode hr w).1 hsel
    obtain ⟨i', hd', rfl⟩ := (selects_iff_decode hr' w).1 hsel'
    cases hd.symm.trans hd'
    rfl

/-! ### Lookup errors -/

/-- Every function up to 10 has a kernel operation (30_encoding R83). -/
theorem kernelOperation_ne_error {fn : Nat} (hfn : fn ≤ 10) (e : DecodeError) : kernelOperation fn ≠ .error e := by
  interval_cases fn <;> exact nofun

theorem plainOperation_ne_unknownKernel (opc : Nat) : plainOperation opc ≠ .error .unknownKernel := by
  unfold plainOperation
  split <;> exact nofun

/-- `UnknownKernel` is raised by class 1 with a function above 10, whatever the other bits (60_exceptions R183). -/
theorem decode_eq_unknownKernel_iff (w : Word) :
    decode w = .error .unknownKernel ↔ bits w 7 4 = 0x1 ∧ 11 ≤ bits w 3 0 := by
  unfold decode
  split
  case isTrue hclass =>
    split
    case isTrue hfn => exact iff_of_true rfl ⟨hclass, hfn⟩
    case isFalse hfn =>
      refine iff_of_false ?_ fun h => hfn h.2
      split
      · exact nofun
      · exact kernelOperation_ne_error (by omega) _
  case isFalse hclass =>
    refine iff_of_false ?_ fun h => hclass h.1
    split
    · split <;> exact nofun
    · split
      · exact nofun
      · exact plainOperation_ne_unknownKernel _

/-- No row selects exactly the words that do not decode (30_encoding R86). -/
theorem forall_selects_eq_false_iff (w : Word) :
    (∀ r ∈ opcodeTable, r.selects w = false) ↔ ∀ i, decode w ≠ .ok i := by
  constructor
  · intro hnone i hd
    exact Bool.eq_false_iff.1 (hnone _ (opcodeRow_mem i)) (opcodeRow_selects hd)
  · intro hnone r hr
    refine Bool.eq_false_iff.2 fun hsel => ?_
    obtain ⟨i, hd, _⟩ := (selects_iff_decode hr w).1 hsel
    exact hnone i hd

/-- Settles O21: the words that do not decode are those no row selects, and `UnknownKernel` takes its own first. -/
theorem lookupErrorOfEveryWord : Obligations.LookupErrorOfEveryWord := by
  intro w
  refine ⟨decode_eq_unknownKernel_iff w, ?_⟩
  rw [← decode_eq_unknownKernel_iff, forall_selects_eq_false_iff]
  rcases decode w with (_ | _) | i <;> simp

/-! ### Assembled lines -/

/-- Tokens that assemble are the mnemonic of a well-formed command and its operands (30_encoding R89). -/
theorem assembleTokens_ok {mnemonic : List Char} {operands : List (List Char)} {i : Instr}
    (h : assembleTokens mnemonic operands = .ok i) : i.wellFormed = true ∧ mnemonic = i.mnemonic.toList := by
  unfold assembleTokens at h
  split at h
  case isTrue hadjust =>
    split at h
    · split at h
      · split at h
        case isTrue hfit =>
          cases h
          exact ⟨hfit, hadjust⟩
        case isFalse => cases h
      · cases h
    · cases h
  case isFalse =>
    split at h
    · cases h
    case h_2 j hfind =>
      split at h
      · cases h
        have hplain : ∀ k ∈ plainInstrs, k.wellFormed = true := by decide
        exact ⟨hplain _ (List.mem_of_find?_eq_some hfind), by simpa using List.find?_some hfind⟩
      · cases h

/-- Settles O23: the general clause by the two forms of a line, the spec's lines by evaluation. -/
theorem assembledLines : Obligations.AssembledLines := by
  refine ⟨fun line i h => assembleTokens_ok h, ?_⟩
  decide

end Sys2Proof
end

section
/-! The script line `copyback` (30_encoding R90): a run of host transactions, of which the last ones copy the destination
words into the source memory. -/

namespace Sys2Proof

open Machine

/-! ### Runs of host transactions -/

/-- With host transactions alone in the schedule, a run of its length performs them in order (20_memory R51, R68). -/
theorem run_host_events (ts : List Transaction) (s : State) :
    Host.Core.run core (ts.map Event.host).length { s with schedule := ts.map .host }
      = .next { ts.foldl (fun u tr => perform tr u) s with schedule := [] } := by
  induction ts generalizing s with
  | nil => rfl
  | cons tr ts ih =>
    have hstep : step { s with schedule := (tr :: ts).map .host }
        = .next { perform tr s with schedule := ts.map .host } := by
      rw [step_host (s := { s with schedule := (tr :: ts).map .host }) rfl, ← perform_withSchedule]
      rfl
    exact (run_next hstep _).trans (ih (perform tr s))

/-- A script line that holds and expands to host transactions performs them (30_encoding R90). -/
theorem runScript_singleton {l : ScriptLine} {s : State} {ts : List Transaction} (hholds : l.holds s = true)
    (hevents : l.events s = ts.map .host) :
    runScript [l] s = some { ts.foldl (fun u tr => perform tr u) s with schedule := [] } := by
  rw [runScript, if_pos hholds, hevents, run_host_events]
  rfl

/-! ### The transactions of `copyback` -/

/-- `SrcWrite(k, v_k)` after a read of `DST`, for `k` in `0 .. n − 1` (30_encoding R90). -/
def copyTransactions (n : Nat) (v : Nat → Word) : List Transaction :=
  (List.range n).flatMap fun k => [.dstRead k, .srcWrite k (v k)]

/-- The reads of the destination descriptor and the writes of the source descriptor (30_encoding R90). -/
def descriptorTransactions (h w c : Word) : List Transaction :=
  [.regRead 5, .regRead 6, .regRead 7, .regWrite 2 h, .regWrite 3 w, .regWrite 4 c]

theorem copyEvents_eq (n : Nat) (s : State) :
    copyEvents n s = (copyTransactions n fun k => dstRead k s).map .host := by
  rw [copyTransactions, List.map_flatMap]
  rfl

theorem copyback_events (s : State) :
    ScriptLine.copyback.events s
      = (descriptorTransactions s.dstH s.dstW (s.dstCfg &&& dstCfgMask)
          ++ copyTransactions (s.dstH.toNat * s.dstW.toNat * cfgDepth (s.dstCfg &&& dstCfgMask))
              fun k => dstRead k s).map .host := by
  rw [List.map_append, ← copyEvents_eq]
  rfl

/-- The state once `copyback` has copied the destination's descriptor to the source, before it copies any word. -/
def describeResult (s : State) : State :=
  { s with srcH := s.dstH, srcW := s.dstW, srcCfg := s.dstCfg, response := none }

theorem perform_regWrite_srcH {s : State} (hidle : isBusy s = false) (v : Word) :
    perform (.regWrite 2 v) s = { s with srcH := v, response := none } := perform_regWrite_idle hidle 2 v

theorem perform_regWrite_srcW {s : State} (hidle : isBusy s = false) (v : Word) :
    perform (.regWrite 3 v) s = { s with srcW := v, response := none } := perform_regWrite_idle hidle 3 v

theorem perform_regWrite_srcCfg {s : State} (hidle : isBusy s = false) (v : Word) :
    perform (.regWrite 4 v) s = { s with srcCfg := v, response := none } := perform_regWrite_idle hidle 4 v

/-- On an idle CORE the six register transactions set the source descriptor and nothing else (20_memory R56). -/
theorem foldl_descriptorTransactions {s : State} (hidle : isBusy s = false) :
    (descriptorTransactions s.dstH s.dstW s.dstCfg).foldl (fun u tr => perform tr u) s = describeResult s := by
  show perform (.regWrite 4 s.dstCfg) (perform (.regWrite 3 s.dstW) (perform (.regWrite 2 s.dstH)
    { s with response := some (readRegister 7 s) })) = describeResult s
  rw [perform_regWrite_srcH, perform_regWrite_srcW, perform_regWrite_srcCfg]
  · rfl
  all_goals exact hidle

/-- `u` is `s` but for `SRC` and `response`, and the words `0 .. n − 1` of its `SRC` are those of `v`. -/
structure CopiedToSource (v : Nat → Word) (n : Nat) (s u : State) : Prop where
  rest  : u = { s with src := u.src, response := u.response }
  words : ∀ k < n, srcWord u k = v k

/-- One more word copied (20_memory R54, R57). -/
theorem CopiedToSource.succ {v : Nat → Word} {n : Nat} {s u : State} (h : CopiedToSource v n s u)
    (hidle : isBusy s = false) (hn : n < s.config.params.srcCap) :
    CopiedToSource v (n + 1) s (perform (.srcWrite n (v n)) (perform (.dstRead n) u)) := by
  obtain ⟨hrest, hwords⟩ := h
  have hidle' : isBusy (perform (.dstRead n) u) = false := by
    rw [hrest]
    exact hidle
  have hn' : n < (perform (.dstRead n) u).config.params.srcCap := by
    rw [hrest]
    exact hn
  rw [perform_srcWrite_idle hidle', if_pos hn']
  refine ⟨?_, fun k hk => (srcWord_writeSrc n k (v n) u).trans ?_⟩
  · rw [hrest]
    rfl
  · split
    case isTrue heq => rw [heq]
    case isFalse hne => exact hwords k (by omega)

/-- The copying transactions on an idle CORE, by induction on their number. -/
theorem copiedToSource_foldl (v : Nat → Word) {n : Nat} {s : State} (hidle : isBusy s = false)
    (hn : n ≤ s.config.params.srcCap) :
    CopiedToSource v n s ((copyTransactions n v).foldl (fun u tr => perform tr u) s) := by
  induction n with
  | zero => exact ⟨rfl, nofun⟩
  | succ n ih =>
    rw [copyTransactions, List.range_succ, List.flatMap_append, List.foldl_append]
    exact (ih (by omega)).succ hidle hn

/-! ### The result as the next source -/

/-- A legal destination descriptor reads back whole (10_state R29, R32). -/
theorem and_dstCfgMask_of_reserved {cfg : Word} (h : cfgReserved cfg = 0) : cfg &&& dstCfgMask = cfg := by
  rw [cfgReserved_eq] at h
  refine BitVec.eq_of_toNat_eq ?_
  rw [BitVec.toNat_and]
  exact (Nat.and_two_pow_sub_one_eq_mod cfg.toNat 4).trans (Nat.mod_eq_of_lt (by omega))

/-- A source with the destination's descriptor and words is the destination's buffer value (10_state R36). -/
theorem sourceBuffer_eq_destBuffer {s t : State} (hh : t.srcH = s.dstH) (hw : t.srcW = s.dstW)
    (hcfg : t.srcCfg = s.dstCfg) (hwords : ∀ k < (destBuffer s).size, srcWord t k = dstWord s k) :
    sourceBuffer t = destBuffer s := by
  unfold sourceBuffer sourceSize destBuffer
  rw [hh, hw, hcfg]
  congr 1
  exact List.map_congr_left fun k hk => congrArg BitVec.toNat (hwords k (List.mem_range.1 hk))

/-- Settles O55: the line sets the source descriptor, then copies word by word. -/
theorem copybackMakesResultTheSource : Obligations.CopybackMakesResultTheSource := by
  intro s hidle ⟨hreserved, _, hfitDst⟩ hfitSrc
  have hrun := runScript_singleton (l := .copyback) (s := s) rfl (copyback_events s)
  rw [and_dstCfgMask_of_reserved hreserved, List.foldl_append, foldl_descriptorTransactions hidle] at hrun
  obtain ⟨hrest, hwords⟩ := copiedToSource_foldl (fun k => dstRead k s) (s := describeResult s) hidle hfitSrc
  refine ⟨_, hrun, sourceBuffer_eq_destBuffer (congrArg State.srcH hrest :) (congrArg State.srcW hrest :)
    (congrArg State.srcCfg hrest :) fun k hk => (hwords k hk).trans (if_pos (hk.trans_le hfitDst)),
    (congrArg destBuffer hrest :), (congrArg State.cmd hrest :), (congrArg State.status hrest :),
    (congrArg State.dst hrest :)⟩

end Sys2Proof
end

section
/-! The grayscale converter (41_grayscale): what it answers, and the properties of R102. -/

namespace Sys2Proof

open Machine Claims

/-! ### The result -/

theorem gray_eq_self {S : Buffer} (hd : S.d = 1) : gray S = S := if_pos hd

theorem gray_fmt (S : Buffer) : (gray S).fmt = if S.d = 1 then S.fmt else .ym := by
  unfold gray
  split <;> rfl

/-- `grayscale` completes, and its samples are the luminance raws of the source, at either depth (41 R101). -/
theorem exec_grayscale_completed {s : State} (hok : sourceOk s = true)
    (hfit : s.srcH.toNat * s.srcW.toNat ≤ s.config.params.dstCap) :
    ∃ t, exec .grayscale s = .next t
      ∧ Completed s t s.srcH.toNat s.srcW.toNat 1 (if cfgDepth s.srcCfg = 1 then cfgFormat s.srcCfg else .ym)
          (if cfgDepth s.srcCfg = 1 then cfgOrder s.srcCfg else .rgb)
      ∧ ∀ y x, y < s.srcH.toNat → x < s.srcW.toNat → dstAt t s.srcW.toNat 1 y x 0 = lumAt s y x := by
  obtain ⟨t, hexec, hcompleted, hdst⟩ :=
    runOperation_completed gray_legal hok (by simpa [Shape.toGray, Shape.size, Buffer.shape] using hfit) rfl
  rw [gray_h, gray_w, gray_d, gray_fmt, gray_chord] at hcompleted
  simp only [gray_h, gray_w, gray_d] at hdst
  exact ⟨t, hexec, hcompleted, fun y x hy hx =>
    (hdst y x 0 hy hx zero_lt_one).trans (gray_sample_eq_lumAt hok hy hx)⟩

theorem lumAt_of_depth_one {s : State} (hd : cfgDepth s.srcCfg = 1) (y x : Nat) : lumAt s y x = srcAt s y x 0 :=
  if_pos hd

/-- The luminance raw of a colour pixel is its exact luminance in thousandths (41 R100, R101). -/
theorem lumAt_div_of_depth_three {s : State} (hd : cfgDepth s.srcCfg = 3) (y x : Nat) :
    (lumAt s y x : ℚ) / 1000
      = 299 / 1000 * (srcAt s y x (redIndex s) : ℚ) + 587 / 1000 * (srcAt s y x 1 : ℚ)
        + 114 / 1000 * (srcAt s y x (blueIndex s) : ℚ) := by
  have hlum : lumAt s y x
      = 299 * srcAt s y x (redIndex s) + 587 * srcAt s y x 1 + 114 * srcAt s y x (blueIndex s) :=
    if_neg (by omega)
  rw [hlum]
  push_cast
  ring

/-- Settles O31: at either depth the result holds the luminance raws of the source. -/
theorem grayscaleResult : Obligations.GrayscaleResult := by
  intro s hok hfit
  obtain ⟨t, hexec, hcompleted, hdst⟩ := exec_grayscale_completed hok hfit
  constructor
  · intro hcolour
    have hd : cfgDepth s.srcCfg ≠ 1 := by omega
    rw [if_neg hd, if_neg hd] at hcompleted
    refine ⟨t, hexec, hcompleted, fun y x hy hx => ?_⟩
    rw [hdst y x hy hx]
    exact lumAt_div_of_depth_three hcolour y x
  · intro hgray
    rw [if_pos hgray, if_pos hgray] at hcompleted
    exact ⟨t, hexec, hcompleted, fun y x hy hx => (hdst y x hy hx).trans (lumAt_of_depth_one hgray y x)⟩

/-! ### The properties -/

theorem Format.scale_le (f : Format) : f.scale ≤ 1000 := by cases f <;> decide

theorem gray_raw_le {S : Buffer} (hS : S.wellFormed = true) {r : Nat} (hr : r ∈ (gray S).raw) : r ≤ 255000 := by
  obtain ⟨_, _, _, _, _, hraw⟩ := (wellFormed_iff _).1 (gray_wellFormed hS)
  calc r ≤ 255 * (gray S).fmt.scale := hraw r hr
    _ ≤ 255 * 1000 := Nat.mul_le_mul_left 255 (Format.scale_le _)

/-- A `U8` source becomes `YM` exactly when it has colour (41 R102 (b), log 19). -/
theorem gray_fmt_eq_ym_iff {S : Buffer} (hS : S.wellFormed = true) (hfmt : S.fmt = .u8) :
    (gray S).fmt = .ym ↔ S.d = 3 := by
  obtain ⟨hd | hd, _⟩ := (wellFormed_iff S).1 hS <;> simp [gray_fmt, hfmt, hd]

theorem redChannel_lt (o : ChannelOrder) : redChannel o < 3 := by cases o <;> decide

theorem blueChannel_lt (o : ChannelOrder) : blueChannel o < 3 := by cases o <;> decide

theorem luminance_mono {r g b r' g' b' : Nat} (hr : r ≤ r') (hg : g ≤ g') (hb : b ≤ b') :
    luminance r g b ≤ luminance r' g' b' := by
  unfold luminance
  omega

/-- `Gray` is monotone at each pixel in the samples of that pixel (41 R102 (d)). -/
theorem gray_sample_mono {S S' : Buffer} {y x : Nat} (hS : S.wellFormed = true) (hh : S'.h = S.h) (hw : S'.w = S.w)
    (hd : S'.d = S.d) (hchord : S'.chord = S.chord) (hy : y < S.h) (hx : x < S.w)
    (hle : ∀ c < S.d, S.sample y x c ≤ S'.sample y x c) : (gray S).sample y x 0 ≤ (gray S').sample y x 0 := by
  rw [gray_sample hy hx, gray_sample (hh ▸ hy) (hw ▸ hx), hd, hchord]
  obtain ⟨hd1 | hd3, _⟩ := (wellFormed_iff S).1 hS
  · rw [if_pos hd1, if_pos hd1]
    exact hle 0 (by omega)
  · have hne : S.d ≠ 1 := by omega
    rw [hd3] at hle
    rw [if_neg hne, if_neg hne, greenChannel_eq]
    exact luminance_mono (hle _ (redChannel_lt _)) (hle 1 (by omega)) (hle _ (blueChannel_lt _))

/-- Settles O32: `Gray` is the identity at depth 1, which its result always has, and a weighted sum at depth 3. -/
theorem grayscaleProperties : Obligations.GrayscaleProperties :=
  ⟨fun S hS => ⟨gray_eq_self (gray_d S), gray_h S, gray_w S, gray_d S, fun _ => gray_raw_le hS,
      gray_fmt_eq_ym_iff hS⟩,
    fun _ _ hS _ hh hw hd _ hchord hle y x hy hx =>
      gray_sample_mono hS hh hw hd hchord hy hx fun c => hle y x c hy hx⟩

end Sys2Proof
end

section
/-! The range adjuster (42_range_adjust): rounding is monotone, and so is an adjusted sample; what `adjust` answers on a
grayscale source, and when it fails. -/

namespace Sys2Proof

open Machine Claims

/-! ### Monotone rounding -/

/-- Rounding is monotone (00_scope R10): between two floors it cannot pass the greater one, and above one floor the
remainder decides. -/
theorem rnd_mono (tie : Tie) {N N' : Int} {D : Nat} (hD : 0 < D) (hN : N ≤ N') : rnd tie N D ≤ rnd tie N' D := by
  have hfloor : floorDiv N D ≤ floorDiv N' D := Int.ediv_le_ediv (by omega) hN
  rcases hfloor.lt_or_eq with hlt | heq
  · have hlow := rnd_cases tie N D hD
    have hhigh := rnd_cases tie N' D hD
    omega
  · have hmod : modulo N D ≤ modulo N' D := by
      unfold modulo
      rw [heq]
      omega
    have htie := roundTie_cases tie (floorDiv N' D)
    unfold rnd
    dsimp only
    rw [heq]
    split_ifs <;> omega

/-! ### The adjusted sample -/

theorem adjustNumerator_rmin (rmin newMin newMax : Nat) {rmax : Nat} (h : rmin < rmax) :
    adjustNumerator rmin rmin rmax newMin newMax = newMin * ((rmax - rmin : Nat) : Int) := by
  unfold adjustNumerator
  push_cast [h.le]
  ring

theorem adjustNumerator_rmax (rmin newMin newMax : Nat) {rmax : Nat} (h : rmin < rmax) :
    adjustNumerator rmax rmin rmax newMin newMax = newMax * ((rmax - rmin : Nat) : Int) := by
  unfold adjustNumerator
  push_cast [h.le]
  ring

theorem adjustNumerator_mono (rmin rmax : Nat) {newMin newMax v v' : Nat} (hnew : newMin ≤ newMax) (hv : v ≤ v') :
    adjustNumerator v rmin rmax newMin newMax ≤ adjustNumerator v' rmin rmax newMin newMax :=
  add_le_add_left (mul_le_mul_of_nonneg_right (by omega) (by omega)) _

theorem adjustNumerator_antitone (rmin rmax : Nat) {newMin newMax v v' : Nat} (hnew : newMax ≤ newMin) (hv : v ≤ v') :
    adjustNumerator v' rmin rmax newMin newMax ≤ adjustNumerator v rmin rmax newMin newMax :=
  add_le_add_left (mul_le_mul_of_nonpos_right (by omega) (by omega)) _

/-- The least sample is mapped to the first immediate (42 R114 (b)). -/
theorem adjustSample_rmin (tie : Tie) {rmin rmax : Nat} (newMin newMax : Nat) (h : rmin < rmax) :
    adjustSample tie rmin rmax newMin newMax rmin = newMin := by
  unfold adjustSample
  rw [adjustNumerator_rmin rmin newMin newMax h, rnd_mul tie _ _ (by omega), Int.toNat_natCast]

/-- The greatest sample is mapped to the second immediate (42 R114 (b)). -/
theorem adjustSample_rmax (tie : Tie) {rmin rmax : Nat} (newMin newMax : Nat) (h : rmin < rmax) :
    adjustSample tie rmin rmax newMin newMax rmax = newMax := by
  unfold adjustSample
  rw [adjustNumerator_rmax rmin newMin newMax h, rnd_mul tie _ _ (by omega), Int.toNat_natCast]

/-- An adjusted sample follows the order of its numerator, whatever immediates gave it (42 R112). -/
theorem adjustSample_le_of_numerator_le (tie : Tie) {rmin rmax newMin newMax v v' : Nat} (h : rmin < rmax)
    (hN : adjustNumerator v rmin rmax newMin newMax ≤ adjustNumerator v' rmin rmax newMin newMax) :
    adjustSample tie rmin rmax newMin newMax v ≤ adjustSample tie rmin rmax newMin newMax v' :=
  Int.toNat_le_toNat (rnd_mono tie (by omega) hN)

/-- Settles O35: the ends are exact divisions, and between them the numerator is monotone in the sample. -/
theorem adjustProperties : Obligations.AdjustProperties := by
  intro tie rmin rmax newMin newMax h
  refine ⟨adjustSample_rmin tie newMin newMax h, adjustSample_rmax tie newMin newMax h,
    fun v hlow hhigh => adjustSample_bounds tie h hlow hhigh, fun v v' _ hv _ => ⟨fun hnew => ?_, fun hnew => ?_⟩⟩
  · exact adjustSample_le_of_numerator_le tie h (adjustNumerator_mono rmin rmax hnew hv)
  · exact adjustSample_le_of_numerator_le tie h (adjustNumerator_antitone rmin rmax hnew hv)

/-! ### The result -/

/-- Rounding keeps a number from 0 upward, since it moves by at most a half (00_scope R10). -/
theorem rndRat_nonneg (tie : Tie) {q : ℚ} (hq : 0 ≤ q) : 0 ≤ rndRat tie q := by
  obtain ⟨hnear, _⟩ := abs_le.1 (abs_rndRat_sub_le tie q)
  have hgt : ((-1 : Int) : ℚ) < (rndRat tie q : ℚ) := by
    push_cast
    linarith
  have := Int.cast_lt.1 hgt
  omega

/-- The document's remap of a sample between the extremes is a weighted mean of the immediates, so not negative
(42 R110). -/
theorem remap_nonneg {rmin rmax v : Nat} (newMin newMax : Nat) (h : rmin < rmax) (hlow : rmin ≤ v) (hhigh : v ≤ rmax) :
    (0 : ℚ) ≤ ((v : ℚ) - rmin) * ((newMax : ℚ) - newMin) / ((rmax : ℚ) - rmin) + newMin := by
  have hD : (0 : ℚ) < (rmax : ℚ) - rmin := sub_pos.2 (by exact_mod_cast h)
  have hv : (0 : ℚ) ≤ (v : ℚ) - rmin := sub_nonneg.2 (by exact_mod_cast hlow)
  have hw : (0 : ℚ) ≤ (rmax : ℚ) - v := sub_nonneg.2 (by exact_mod_cast hhigh)
  have hmean : ((v : ℚ) - rmin) * ((newMax : ℚ) - newMin) / ((rmax : ℚ) - rmin) + newMin
      = (((v : ℚ) - rmin) * newMax + ((rmax : ℚ) - v) * newMin) / ((rmax : ℚ) - rmin) := by
    field_simp
    ring
  rw [hmean]
  positivity

/-- The adjusted sample is the document's remap of the sample's value, whatever number of raw units is one unit of value
(42 R110, R112). -/
theorem adjustSample_eq_rndRat_values (tie : Tie) {rmin rmax v : Nat} (newMin newMax : Nat) (fmt : Format)
    (h : rmin < rmax) (hlow : rmin ≤ v) (hhigh : v ≤ rmax) :
    (adjustSample tie rmin rmax newMin newMax v : Int)
      = rndRat tie (((v : ℚ) / (fmt.scale : ℚ) - (rmin : ℚ) / (fmt.scale : ℚ)) * ((newMax : ℚ) - (newMin : ℚ))
          / ((rmax : ℚ) / (fmt.scale : ℚ) - (rmin : ℚ) / (fmt.scale : ℚ)) + (newMin : ℚ)) := by
  have hscale : (fmt.scale : ℚ) ≠ 0 := Nat.cast_ne_zero.2 (by have := fmt.scale_pos; omega)
  rw [← sub_div, ← sub_div, div_mul_eq_mul_div, div_div_div_cancel_right₀ hscale,
    adjustSample_eq_rndRat tie newMin newMax v h]
  exact Int.toNat_of_nonneg (rndRat_nonneg tie (remap_nonneg newMin newMax h hlow hhigh))

/-- The size check of `adjust` is made with result depth 1 (20_memory R67). -/
theorem toGray_size_sourceBuffer (s : State) :
    (Shape.toGray (sourceBuffer s).shape).size = s.srcH.toNat * s.srcW.toNat := Nat.mul_one _

/-- The raw samples of a grayscale source are its words, one for each pixel (20_memory R65). -/
theorem mem_sourceBuffer_raw_of_depth_one {s : State} (hd : cfgDepth s.srcCfg = 1) (r : Nat) :
    r ∈ (sourceBuffer s).raw ↔ ∃ k, k < s.srcH.toNat * s.srcW.toNat ∧ (srcWord s k).toNat = r := by
  rw [mem_sourceBuffer_raw, sourceSize, hd, mul_one]
  exact exists_congr fun k => and_congr_right fun _ => eq_comm

/-- `adjust` completes on a grayscale source that is not constant, and its samples are the adjusted source samples
(42 R112). -/
theorem exec_adjust_completed {s : State} {newMin newMax : Nat} (hmin : newMin ≤ 255) (hmax : newMax ≤ 255)
    (hok : sourceOk s = true) (hd : cfgDepth s.srcCfg = 1)
    (hfit : s.srcH.toNat * s.srcW.toNat ≤ s.config.params.dstCap)
    (hne : rawMin (sourceBuffer s) ≠ rawMax (sourceBuffer s)) :
    ∃ t, exec (.adjust newMin newMax) s = .next t
      ∧ Completed s t s.srcH.toNat s.srcW.toNat 1 .u8 (cfgOrder s.srcCfg)
      ∧ ∀ y x, y < s.srcH.toNat → x < s.srcW.toNat → dstAt t s.srcW.toNat 1 y x 0
          = adjustSample s.config.params.tie (rawMin (sourceBuffer s)) (rawMax (sourceBuffer s)) newMin newMax
              (srcAt s y x 0) := by
  obtain ⟨A, hA⟩ := exists_adjust_ok s.config.params.tie newMin newMax hd hne
  obtain ⟨t, hexec, hcompleted, hdst⟩ := runOperation_completed (adjust_legal newMin newMax hmin hmax) hok
    ((toGray_size_sourceBuffer s).trans_le hfit) hA
  have hsample : ∀ y x, y < s.srcH.toNat → x < s.srcW.toNat → A.sample y x 0
      = adjustSample s.config.params.tie (rawMin (sourceBuffer s)) (rawMax (sourceBuffer s)) newMin newMax
          (srcAt s y x 0) := fun y x hy hx => by
    rw [adjust_sample hA hy hx, sourceBuffer_sample_eq_srcAt s hy hx (by omega)]
  obtain ⟨_, _, rfl⟩ := adjust_ok hA
  exact ⟨t, hexec, hcompleted, fun y x hy hx => (hdst y x 0 hy hx zero_lt_one).trans (hsample y x hy hx)⟩

/-- Settles O33: `lo` and `hi` are the least and greatest raw samples of the source buffer value, and the machine's
integer form of the remap is the rational one. -/
theorem adjustResult : Obligations.AdjustResult := by
  intro s newMin newMax lo hi hmin hmax hok hd hfit hbounds hlo hhi hne
  have hraw : ∀ r ∈ (sourceBuffer s).raw, lo ≤ r ∧ r ≤ hi := fun r hr => by
    obtain ⟨k, hk, rfl⟩ := (mem_sourceBuffer_raw_of_depth_one hd r).1 hr
    exact hbounds k hk
  have hloMem := (mem_sourceBuffer_raw_of_depth_one hd lo).2 hlo
  have hrawMin : rawMin (sourceBuffer s) = lo := rawMin_eq hloMem fun r hr => (hraw r hr).1
  have hrawMax : rawMax (sourceBuffer s) = hi :=
    rawMax_eq ((mem_sourceBuffer_raw_of_depth_one hd hi).2 hhi) fun r hr => (hraw r hr).2
  have hlt : lo < hi := lt_of_le_of_ne (hraw lo hloMem).2 hne
  obtain ⟨t, hexec, hcompleted, hdst⟩ :=
    exec_adjust_completed hmin hmax hok hd hfit (by rwa [hrawMin, hrawMax])
  refine ⟨t, hexec, hcompleted, fun y x hy hx => ?_⟩
  have hmem : srcAt s y x 0 ∈ (sourceBuffer s).raw := (mem_raw_iff_sample (sourceBuffer_wellFormed s hok) _).2
    ⟨y, x, 0, hy, hx, by simp [hd], sourceBuffer_sample_eq_srcAt s hy hx (by omega)⟩
  rw [hdst y x hy hx, hrawMin, hrawMax]
  exact adjustSample_eq_rndRat_values _ newMin newMax _ hlt (hraw _ hmem).1 (hraw _ hmem).2

/-! ### Degenerate input -/

/-- An operation whose source passes, whose result would fit and whose function answers an error fails with it. -/
theorem runOperation_failed {sh : Shape → Shape} {f : Config → Buffer → Except ErrorKind Buffer} {s : State}
    {e : ErrorKind} (hok : sourceOk s = true) (hfit : (sh (sourceBuffer s).shape).size ≤ s.config.params.dstCap)
    (hf : f s.config (sourceBuffer s) = .error e) : ∃ t, runOperation sh f s = .next t ∧ Failed s t e.code := by
  refine ⟨completeErr e s, ?_, failed_completeErr e s⟩
  rw [runOperation_checked hok hfit, hf]
  rfl

/-- `Adjust` fails on a buffer that is not grayscale, and on a grayscale one that is constant (42 R111). -/
theorem adjust_eq_domain (tie : Tie) {S : Buffer} (newMin newMax : Nat) (h : S.d = 1 → rawMin S = rawMax S) :
    adjust tie S newMin newMax = .error .domain := by
  unfold adjust
  split
  case isTrue => rfl
  case isFalse hgray => exact if_pos (h (not_not.1 hgray))

/-- A source whose words are all equal has equal extremes (42 R111). -/
theorem rawMin_eq_rawMax_of_constant {s : State} (hok : sourceOk s = true)
    (hconst : ∀ j k, j < sourceSize s → k < sourceSize s → srcWord s j = srcWord s k) :
    rawMin (sourceBuffer s) = rawMax (sourceBuffer s) := by
  have hne := wellFormed_raw_ne_nil (sourceBuffer_wellFormed s hok)
  obtain ⟨j, hj, hmin⟩ := (mem_sourceBuffer_raw s _).1 (rawMin_mem hne)
  obtain ⟨k, hk, hmax⟩ := (mem_sourceBuffer_raw s _).1 (rawMax_mem hne)
  rw [hmin, hmax, hconst j k hj hk]

/-- Settles O34: either cause stops `Adjust`, and after the two checks its error is the operation's. -/
theorem adjustDomainError : Obligations.AdjustDomainError := by
  intro s newMin newMax _ _ hok hfit hcause
  have hdegenerate : (sourceBuffer s).d = 1 → rawMin (sourceBuffer s) = rawMax (sourceBuffer s) := fun hd => by
    rw [sourceBuffer_d] at hd
    rcases hcause with hcolour | hconst
    · omega
    · refine rawMin_eq_rawMax_of_constant hok ?_
      rwa [sourceSize, hd, mul_one]
  exact runOperation_failed (f := fun c S => adjust c.params.tie S newMin newMax) hok
    ((toGray_size_sourceBuffer s).trans_le hfit) (adjust_eq_domain _ newMin newMax hdegenerate)

end Sys2Proof
end

section
/-! The thresholds of the halftone tile (43 R121): each of the nine levels lies in exactly one cell, so each pattern
adds one cell to the one before (43 R120). -/

namespace Sys2Proof

open Machine

theorem vector_toList_eq_ofFn {α : Type} {n : Nat} (v : Vector α n) : v.toList = List.ofFn fun i : Fin n => v[i] := by
  conv_lhs => rw [← Vector.ofFn_getElem (xs := v), Vector.toList_ofFn]
  rfl

theorem count_ofFn {α : Type} [DecidableEq α] {n : Nat} (f : Fin n → α) (x : α) :
    (List.ofFn f).count x = ∑ i, if f i = x then 1 else 0 := by
  induction n with
  | zero => rfl
  | succ n ih =>
    rw [List.ofFn_succ, List.count_cons, ih, Fin.sum_univ_succ, Nat.add_comm]
    simp only [beq_iff_eq]

/-- How often a level occurs in `HTT`, cell by cell. -/
theorem count_htt_eq_sum (c : Config) (n : Nat) :
    (c.params.htt.toList.flatMap Vector.toList).count n
      = ∑ a : Fin 3, ∑ b : Fin 3, if c.threshold a b = n then 1 else 0 := by
  rw [List.count_flatMap, vector_toList_eq_ofFn c.params.htt, List.map_ofFn, List.sum_ofFn]
  refine Finset.sum_congr rfl fun a _ => ?_
  show (c.params.htt[a]).toList.count n = _
  rw [vector_toList_eq_ofFn, count_ofFn]
  rfl

/-- Each of the nine levels lies in one cell (43 R121). -/
theorem sum_threshold_eq_one (c : Config) {n : Nat} (hn : n < 9) :
    (∑ a : Fin 3, ∑ b : Fin 3, if c.threshold a b = n then 1 else 0) = 1 := by
  have hhtt := c.admissible
  simp only [Params.admissible, Bool.and_eq_true, Params.httAdmissible, List.all_eq_true, List.mem_range,
    beq_iff_eq] at hhtt
  rw [← count_htt_eq_sum]
  exact hhtt.2 n hn

/-- The cell that holds a level (43 R121). -/
theorem existsUnique_threshold (c : Config) {n : Nat} (hn : n < 9) :
    ∃! p : Fin 3 × Fin 3, c.threshold p.1 p.2 = n := by
  have hsum := sum_threshold_eq_one c hn
  rw [← Fintype.sum_prod_type' fun a b => if c.threshold a b = n then 1 else 0, Finset.sum_boole, Nat.cast_id,
    Finset.card_eq_one] at hsum
  obtain ⟨p, hp⟩ := hsum
  have hiff : ∀ q : Fin 3 × Fin 3, c.threshold q.1 q.2 = n ↔ q = p := by simpa [Finset.ext_iff] using hp
  exact ⟨p, (hiff p).2 rfl, fun q => (hiff q).1⟩

theorem mask_zero (c : Config) (a b : Fin 3) : c.mask 0 a b = 0 := if_neg (Nat.not_lt_zero _)

/-- A pattern lights, besides the cells of the one before, the cell of its own level (43 R120, R121). -/
theorem mask_succ (c : Config) (k : Nat) (a b : Fin 3) :
    c.mask (k + 1) a b = c.mask k a b + if c.threshold a b = k then 1 else 0 := by
  unfold Config.mask
  split <;> split <;> split <;> omega

/-- The cell a pattern adds to the one before is the cell of its level. -/
theorem mask_added_iff (c : Config) (k : Nat) (a b : Fin 3) :
    c.mask k a b = 0 ∧ c.mask (k + 1) a b = 1 ↔ c.threshold a b = k := by
  unfold Config.mask
  split <;> split <;> omega

/-- Pattern `k` has `k` cells on (43 R120). -/
theorem sum_mask (c : Config) {k : Nat} (hk : k ≤ 9) : (∑ a : Fin 3, ∑ b : Fin 3, c.mask k a b) = k := by
  induction k with
  | zero => simp [mask_zero]
  | succ k ih =>
    simp only [mask_succ, Finset.sum_add_distrib]
    rw [ih (by omega), sum_threshold_eq_one c (by omega)]

/-- Settles O36: each of the nine levels lies in one cell, which is the one its pattern adds. -/
theorem maskAddsOneCellPerLevel : Obligations.MaskAddsOneCellPerLevel := by
  intro c k hk
  refine ⟨fun a b => Nat.le_one_iff_eq_zero_or_eq_one.1 (mask_le_one c k a b), sum_mask c hk,
    fun hlt => ⟨fun a b => (mask_succ c k a b).symm ▸ Nat.le_add_right _ _, ?_⟩⟩
  obtain ⟨⟨a, b⟩, hlevel, huniq⟩ := existsUnique_threshold c hlt
  obtain ⟨hoff, hon⟩ := (mask_added_iff c k a b).2 hlevel
  refine ⟨a, b, hoff, hon, fun a' b' hoff' hon' => ?_⟩
  exact Prod.mk.inj (huniq (a', b') ((mask_added_iff c k a' b').1 ⟨hoff', hon'⟩))

end Sys2Proof
end

section
/-! The errors of the halftone encoder (43 R124, R125): equal luminances stop the adjusting stage, and the code of
`IndexDefectError` never reaches STATUS. -/

namespace Sys2Proof

open Machine Claims

/-- `Halftone` fails when its luminances are all equal, as its adjusting stage does (43 R124). -/
theorem halftone_eq_domain (c : Config) {S : Buffer} (h : rawMin (gray S) = rawMax (gray S)) :
    halftone c S = .error .domain := by
  unfold halftone
  rw [adjust_eq_domain c.params.tie 0 9 fun _ => h]

/-- Settles O38: equal luminances are the least and the greatest raw sample at once, so `Halftone` answers
`DomainError`, after the two checks. -/
theorem halftoneDomainError : Obligations.HalftoneDomainError := by
  intro s hok hfit hequal
  obtain ⟨_, hh, hw, _⟩ := (wellFormed_iff _).1 (sourceBuffer_wellFormed s hok)
  have hmin : rawMin (gray (sourceBuffer s)) = lumAt s 0 0 :=
    rawMin_gray_eq hok (fun y x hy hx => (hequal 0 0 y x hh hw hy hx).le) ⟨0, 0, hh, hw, rfl⟩
  have hmax : rawMax (gray (sourceBuffer s)) = lumAt s 0 0 :=
    rawMax_gray_eq hok (fun y x hy hx => (hequal y x 0 0 hy hx hh hw).le) ⟨0, 0, hh, hw, rfl⟩
  exact runOperation_failed (sh := Shape.tripled) hok
    (by simpa [Shape.tripled, Shape.size, Buffer.shape] using hfit)
    (halftone_eq_domain s.config (hmin.trans hmax.symm))

/-- No host transaction reports an error: it keeps ECODE, or clears it (START, `Reset`). -/
theorem ecodeField_perform (tr : Transaction) (s : State) :
    ecodeField (perform tr s).status = ecodeField s.status ∨ ecodeField (perform tr s).status = 0 := by
  show ecodeField (transactionEffect tr s).status = _ ∨ ecodeField (transactionEffect tr s).status = 0
  rcases transactionEffect_cases tr s with
    he | ⟨_, he⟩ | ⟨_, v, _, he⟩ | ⟨_, he⟩ | ⟨_, v, he⟩ | ⟨_, v, he⟩ | ⟨_, v, he⟩ | ⟨_, a, v, _, he⟩ | ⟨_, he⟩ <;>
    rw [he]
  · exact .inl rfl
  · exact .inl (ecodeField_withWbusy true s.status)
  · exact .inr (ecodeField_startStatus s.status)
  · exact .inl (ecodeField_withWbusy false s.status)
  · exact .inl rfl
  · exact .inl rfl
  · exact .inl rfl
  · exact .inl rfl
  · exact .inr (show ecodeField 0 = 0 by decide)

/-- What a step does to ECODE: it keeps it, or sets one of the codes 0 to 4. -/
theorem step_ecodeField {s t : State} (h : step s = .next t) :
    ecodeField t.status = ecodeField s.status ∨ ecodeField t.status ≤ 4 := by
  rcases step_cases h with ⟨tr, _, _, rfl⟩ | ⟨_, _, rfl⟩ | ⟨_, _, e, _, rfl⟩ | ⟨_, _, i, hd, hexec⟩
  · exact (ecodeField_perform tr (popped s)).imp_right fun hzero => by omega
  · exact .inl rfl
  · exact .inr ((ecodeField_errStatus _ _).trans_le (lookupError_code_le e))
  · rcases exec_cases (decode_wellFormed hd) hexec with ⟨e, he, rfl⟩ | ⟨B, _, _, rfl⟩
    · exact .inr ((ecodeField_errStatus _ _).trans_le (by omega))
    · exact .inl (ecodeField_okStatus s.status)

/-- Settles O30: `halftone` fails by `DomainError` only, and no step sets ECODE above 4. -/
theorem indexDefectIsUnreachable : Obligations.IndexDefectIsUnreachable := by
  refine ⟨fun c S hS h => absurd (halftone_error hS h) (by decide), fun s t h hne => ?_⟩
  rcases step_ecodeField h with hkept | hle
  · rwa [hkept]
  · omega

end Sys2Proof
end

section
/-! The convolution engine (44_convolution): its integer accumulator is the spec's weighted sum of values, and its
integer narrowing that of the rational. -/

namespace Sys2Proof

open Machine Claims

/-! ### The kernel table -/

/-- What the tests of 44 R131 say of the entries of a table. -/
theorem kromAdmissible_config (c : Config) :
    (∀ k, (c.kernel k).admissible = true)
    ∧ (c.kernel 10).rows = Kernel.impulseRows (c.kernel 10).dim (c.kernel 10).div
    ∧ c.kernel 0 = ⟨3, [[1, 1, 1], [1, 1, 1], [1, 1, 1]], 9⟩ := by
  have hadm := c.admissible
  simp only [Params.admissible, Params.kromAdmissible, Bool.and_eq_true, List.all_eq_true, beq_iff_eq] at hadm
  obtain ⟨⟨_, ⟨hall, himpulse⟩, hmean⟩, _⟩ := hadm
  exact ⟨fun k => hall _ (Vector.mem_toList_iff.2 (Vector.getElem_mem k.isLt)), himpulse, hmean⟩

/-- Every kernel of a table has cells and a positive divisor (44 R131 (1), (3)). -/
theorem kernel_pos (c : Config) (k : Fin 11) : 0 < (c.kernel k).dim ∧ 0 < (c.kernel k).div := by
  obtain ⟨hall, _⟩ := kromAdmissible_config c
  have hk := hall k
  simp only [Kernel.admissible, Bool.and_eq_true, Bool.or_eq_true, beq_iff_eq, decide_eq_true_eq] at hk
  omega

theorem kernel_zero (c : Config) : c.kernel 0 = ⟨3, [[1, 1, 1], [1, 1, 1], [1, 1, 1]], 9⟩ :=
  (kromAdmissible_config c).2.2

/-- A weight of the unit impulse (44 R131 (4)): the divisor at the centre, 0 elsewhere. -/
theorem kernel_ten_weight (c : Config) {i j : Nat} (hi : i < (c.kernel 10).dim) (hj : j < (c.kernel 10).dim) :
    (c.kernel 10).weight i j
      = if i = (c.kernel 10).center ∧ j = (c.kernel 10).center then ((c.kernel 10).div : Int) else 0 := by
  obtain ⟨_, himpulse, _⟩ := kromAdmissible_config c
  rw [Kernel.weight, himpulse, Kernel.impulseRows, List.getD_eq_getElem?_getD, List.getD_eq_getElem?_getD,
    List.getElem?_map, List.getElem?_range hi, Option.map_some, Option.getD_some, List.getElem?_map,
    List.getElem?_range hj, Option.map_some, Option.getD_some]
  rfl

/-! ### Wrapped indices -/

theorem wrap_eq_emod (a : Int) (n : Nat) : wrap a n = (a % (n : Int)).toNat := by
  rw [wrap, modulo_eq_emod]

theorem wrap_lt (a : Int) {n : Nat} (hn : 0 < n) : wrap a n < n := by
  have hnonneg := modulo_nonneg a n hn
  have hlt := modulo_lt a n hn
  unfold wrap
  omega

theorem wrap_natCast {a n : Nat} (h : a < n) : wrap (a : Int) n = a := by
  rw [wrap, modulo_natCast a n h, Int.toNat_natCast]

/-- The wrapped neighbours of a 3×3 window, without negative numbers. -/
theorem wrap_sub_one_add (y j : Nat) {n : Nat} (hn : 0 < n) : wrap ((y : Int) - 1 + j) n = (y + n + j - 1) % n := by
  have hshift : (y : Int) - 1 + j = ((y + n + j - 1 : Nat) : Int) - n := by omega
  rw [wrap_eq_emod, hshift, Int.sub_emod_right, ← Int.natCast_mod, Int.toNat_natCast]

/-! ### The accumulator -/

/-- What a source that passes the check has (20_memory R62). -/
theorem sourceOk_tests {s : State} (hok : sourceOk s = true) :
    cfgReserved s.srcCfg = 0 ∧ (cfgDepth s.srcCfg = 1 ∨ cfgDepth s.srcCfg = 3) ∧ 0 < s.srcH.toNat
      ∧ 0 < s.srcW.toNat ∧ ¬(cfgFormat s.srcCfg = .ym ∧ cfgDepth s.srcCfg = 3)
      ∧ ∀ k < sourceSize s, (srcWord s k).toNat ≤ 255 * (cfgFormat s.srcCfg).scale := by
  obtain ⟨hdescriptor, hsamples⟩ := Bool.and_eq_true_iff.1 hok
  obtain ⟨hreserved, hd, hh, hw, hfmt, _⟩ := (descriptorOk_iff s).1 hdescriptor
  exact ⟨hreserved, hd, hh, hw, hfmt, (samplesOk_iff s).1 hsamples⟩

theorem sum_map_range (n : Nat) (f : Nat → Int) : ((List.range n).map f).sum = ∑ i ∈ Finset.range n, f i := rfl

/-- The sample that a kernel cell meets, as the claims read it from `SRC`. -/
theorem windowSample_sourceBuffer (K : Kernel) {s : State} (hok : sourceOk s = true) (y x : Nat) {ch : Nat}
    (hch : ch < cfgDepth s.srcCfg) (i j : Nat) :
    windowSample K (sourceBuffer s) y x ch i j
      = srcAt s (wrap ((y : Int) - K.center + j) s.srcH.toNat) (wrap ((x : Int) - K.center + i) s.srcW.toNat) ch := by
  obtain ⟨_, _, hh, hw, _⟩ := sourceOk_tests hok
  exact sourceBuffer_sample_eq_srcAt s (wrap_lt _ hh) (wrap_lt _ hw) hch

/-- The accumulator as a sum over the kernel cells (44 R135). -/
theorem accumulate_sourceBuffer (K : Kernel) {s : State} (hok : sourceOk s = true) (y x : Nat) {ch : Nat}
    (hch : ch < cfgDepth s.srcCfg) :
    accumulate K (sourceBuffer s) y x ch = ∑ i ∈ Finset.range K.dim, ∑ j ∈ Finset.range K.dim,
      (srcAt s (wrap ((y : Int) - K.center + j) s.srcH.toNat)
        (wrap ((x : Int) - K.center + i) s.srcW.toNat) ch : Int) * K.weight i j := by
  simp only [accumulate, windowTerm, sum_map_range, windowSample_sourceBuffer K hok y x hch]

/-- The weighted sum of values is the accumulator over `s · div` (44 R135). -/
theorem weightedSum_eq_div (K : Kernel) {s : State} (hok : sourceOk s = true) (y x : Nat) {ch : Nat}
    (hch : ch < cfgDepth s.srcCfg) :
    weightedSum K s y x ch
      = (accumulate K (sourceBuffer s) y x ch : ℚ) / (((cfgFormat s.srcCfg).scale * K.div : Nat) : ℚ) := by
  rw [accumulate_sourceBuffer K hok y x hch]
  push_cast
  simp only [weightedSum, wrap_eq_emod, div_mul_div_comm, Finset.sum_div]

/-! ### Narrowing -/

/-- The machine's narrowing of `N / D` on integers is that of the rational (44 R135). -/
theorem narrowed_div (s : State) (N : Int) {D : Nat} (hD : 0 < D) :
    narrowed s ((N : ℚ) / (D : ℚ)) = clip (narrow s.config.params.tie (cfgDepth s.srcCfg) N D) := by
  unfold narrowed narrow
  rw [rnd_eq_rndRat _ _ _ hD, trunc_eq_truncRat _ _ hD]

/-- Narrowing keeps a byte as it is, at either depth (44 R137 (b)). -/
theorem narrowed_natCast (s : State) {n : Nat} (hn : n ≤ 255) : narrowed s (n : ℚ) = n := by
  have htrunc : trunc n 1 = n := (if_pos (Int.natCast_nonneg n)).trans (Int.ediv_one _)
  have hrnd : rnd s.config.params.tie n 1 = n := by simpa using rnd_mul s.config.params.tie n 1 one_pos
  have hdiv := narrowed_div s n one_pos
  rw [narrow, hrnd, htrunc, ite_self, Int.cast_natCast, Nat.cast_one, div_one] at hdiv
  have := clip_of_mem n (by omega) (by omega)
  omega

/-! ### The result -/

/-- The eleven kernel operations run the one engine with their entry of the table (44 R130). -/
theorem exec_eq_runKernel {i : Instr} {k : Fin 11} (h : kernelIndex i = some k) (s : State) :
    exec i s = runKernel k s := by
  cases i <;> cases h <;> rfl

/-- A sample of `Conv(S, k)` is the narrowed weighted sum (44 R135). -/
theorem convolve_sample (k : Fin 11) {s : State} (hok : sourceOk s = true) {y x ch : Nat} (hy : y < s.srcH.toNat)
    (hx : x < s.srcW.toNat) (hch : ch < cfgDepth s.srcCfg) :
    (convolve s.config.params.tie (s.config.kernel k) (sourceBuffer s)).sample y x ch
      = narrowed s (weightedSum (s.config.kernel k) s y x ch) := by
  obtain ⟨_, hdiv⟩ := kernel_pos s.config k
  rw [weightedSum_eq_div _ hok y x hch, narrowed_div s _ (Nat.mul_pos (Format.scale_pos _) hdiv)]
  exact tabulate_sample hy hx hch

/-- Settles O39: a kernel operation completes with `Conv(S, k)`, whose samples are the narrowed weighted sums. -/
theorem kernelResult : Obligations.KernelResult := by
  intro i k s hi hok hfit
  obtain ⟨t, hexec, hcompleted, hdst⟩ := runOperation_completed (convolve_legal k) hok hfit rfl
  exact ⟨t, (exec_eq_runKernel hi s).trans hexec, hcompleted,
    fun y x ch hy hx hch => (hdst y x ch hy hx hch).trans (convolve_sample k hok hy hx hch)⟩

end Sys2Proof
end

section
/-! The convolution engine (44_convolution) on a constant channel, and the two kernels that every admissible table fixes,
`mean` and `identity` (R131, R137, R140, R150). -/

namespace Sys2Proof

open Machine Claims

/-! ### Constant channels -/

/-- On a constant channel the accumulator is the constant times the sum of all weights (44 R137 (c)). -/
theorem accumulate_of_constant (K : Kernel) {s : State} (hok : sourceOk s = true) {ch v : Nat}
    (hch : ch < cfgDepth s.srcCfg) (hconst : ∀ y x, y < s.srcH.toNat → x < s.srcW.toNat → srcAt s y x ch = v)
    (y x : Nat) : accumulate K (sourceBuffer s) y x ch = v * weightSum K := by
  obtain ⟨_, _, hh, hw, _⟩ := sourceOk_tests hok
  rw [accumulate_sourceBuffer K hok y x hch, weightSum]
  simp only [hconst _ _ (wrap_lt _ hh) (wrap_lt _ hw), Finset.mul_sum]

/-- The weighted sum on a constant channel (44 R137 (c)). -/
theorem weightedSum_of_constant (K : Kernel) {s : State} (hok : sourceOk s = true) {ch v : Nat}
    (hch : ch < cfgDepth s.srcCfg) (hconst : ∀ y x, y < s.srcH.toNat → x < s.srcW.toNat → srcAt s y x ch = v)
    (y x : Nat) :
    weightedSum K s y x ch = (v : ℚ) * (weightSum K : ℚ) / (((cfgFormat s.srcCfg).scale : ℚ) * (K.div : ℚ)) := by
  rw [weightedSum_eq_div K hok y x hch, accumulate_of_constant K hok hch hconst]
  push_cast
  rfl

/-- Settles O42: on a constant channel every weighted sum is the constant times the sum of all weights. -/
theorem constantChannelStaysConstant : Obligations.ConstantChannelStaysConstant := by
  intro i k s ch v hi hok hfit hch hconst
  obtain ⟨t, hexec, _, hdst⟩ := kernelResult i k s hi hok hfit
  refine ⟨t, hexec, fun y x hy hx => ?_⟩
  rw [hdst y x ch hy hx hch, weightedSum_of_constant _ hok hch hconst]

/-! ### `mean` -/

/-- The weighted sum of `mean` is the arithmetic mean of the 3×3 window (44 R140). -/
theorem weightedSum_kernel_zero {s : State} (hok : sourceOk s = true) (y x ch : Nat) :
    weightedSum (s.config.kernel 0) s y x ch
      = (∑ i ∈ Finset.range 3, ∑ j ∈ Finset.range 3,
          (srcAt s ((y + s.srcH.toNat + j - 1) % s.srcH.toNat) ((x + s.srcW.toNat + i - 1) % s.srcW.toNat) ch : ℚ)
            / ((cfgFormat s.srcCfg).scale : ℚ)) / 9 := by
  obtain ⟨_, _, hh, hw, _⟩ := sourceOk_tests hok
  have hweight : ∀ i < 3, ∀ j < 3, (s.config.kernel 0).weight i j = 1 := by
    rw [kernel_zero]
    decide
  obtain ⟨hdim, hdiv, hcenter⟩ : (s.config.kernel 0).dim = 3 ∧ (s.config.kernel 0).div = 9
      ∧ (s.config.kernel 0).center = 1 := by
    rw [kernel_zero]
    exact ⟨rfl, rfl, rfl⟩
  rw [weightedSum, hcenter, hdim, hdiv, Finset.sum_div]
  refine Finset.sum_congr rfl fun i hi => ?_
  rw [Finset.sum_div]
  refine Finset.sum_congr rfl fun j hj => ?_
  rw [hweight i (Finset.mem_range.1 hi) j (Finset.mem_range.1 hj), ← wrap_eq_emod, ← wrap_eq_emod, Nat.cast_one,
    wrap_sub_one_add y j hh, wrap_sub_one_add x i hw]
  push_cast
  ring

theorem weightSum_kernel_zero (c : Config) : weightSum (c.kernel 0) = 9 := by
  rw [kernel_zero]
  decide

theorem srcAt_zero (s : State) (ch : Nat) : srcAt s 0 0 ch = (srcWord s ch).toNat := by simp [srcAt]

theorem dstAt_zero (t : State) (w d ch : Nat) : dstAt t w d 0 0 ch = (dstWord t ch).toNat := by simp [dstAt]

/-- A colour source is in `U8` (20_memory R62 (5)). -/
theorem cfgFormat_of_depth_three {s : State} (hok : sourceOk s = true) (hd : cfgDepth s.srcCfg = 3) :
    cfgFormat s.srcCfg = .u8 := by
  obtain ⟨_, _, _, _, hfmt, _⟩ := sourceOk_tests hok
  cases h : cfgFormat s.srcCfg with
  | u8 => rfl
  | ym => exact absurd ⟨h, hd⟩ hfmt

/-- `mean` of one `U8` pixel: the window meets it nine times (44 R140). -/
theorem narrowed_mean_of_one_pixel {s : State} (hok : sourceOk s = true) (hh : s.srcH.toNat = 1)
    (hw : s.srcW.toNat = 1) (hfmt : cfgFormat s.srcCfg = .u8) {ch : Nat} (hch : ch < cfgDepth s.srcCfg) :
    narrowed s (weightedSum (s.config.kernel 0) s 0 0 ch) = (srcWord s ch).toNat := by
  obtain ⟨_, _, _, _, _, hraw⟩ := sourceOk_tests hok
  have hbyte : (srcWord s ch).toNat ≤ 255 := by
    simpa [hfmt, Format.scale] using hraw ch (by simpa [sourceSize, hh, hw] using hch)
  have hconst : ∀ y x, y < s.srcH.toNat → x < s.srcW.toNat → srcAt s y x ch = (srcWord s ch).toNat :=
    fun y x hy hx => by
      obtain ⟨rfl, rfl⟩ : y = 0 ∧ x = 0 := by omega
      exact srcAt_zero s ch
  have hmean : weightedSum (s.config.kernel 0) s 0 0 ch = ((srcWord s ch).toNat : ℚ) := by
    rw [weightedSum_of_constant _ hok hch hconst, weightSum_kernel_zero, kernel_zero, hfmt, Format.scale]
    push_cast
    ring
  rw [hmean, narrowed_natCast s hbyte]

/-- Settles O40: the weights of entry 0 are nine ones over 9, and one pixel is its own window, nine times. -/
theorem meanIsNinthOfWindow : Obligations.MeanIsNinthOfWindow := by
  intro s hok hfit
  obtain ⟨t, hexec, _, hdst⟩ := kernelResult .mean 0 s rfl hok hfit
  refine ⟨t, hexec, fun y x ch hy hx hch => ?_, fun hh hw hd ch hch => BitVec.eq_of_toNat_eq ?_⟩
  · rw [hdst y x ch hy hx hch, weightedSum_kernel_zero hok]
  · have hch' : ch < cfgDepth s.srcCfg := by omega
    have hsample := hdst 0 0 ch (by omega) (by omega) hch'
    rwa [dstAt_zero, narrowed_mean_of_one_pixel hok hh hw (cfgFormat_of_depth_three hok hd) hch'] at hsample

/-! ### `identity` -/

/-- Under the unit impulse the accumulator is the sample itself times the divisor (44 R137 (b)). -/
theorem accumulate_kernel_ten {s : State} (hok : sourceOk s = true) {y x ch : Nat} (hy : y < s.srcH.toNat)
    (hx : x < s.srcW.toNat) (hch : ch < cfgDepth s.srcCfg) :
    accumulate (s.config.kernel 10) (sourceBuffer s) y x ch = srcAt s y x ch * ((s.config.kernel 10).div : Int) := by
  obtain ⟨hdim, _⟩ := kernel_pos s.config 10
  have hcenter : (s.config.kernel 10).center ∈ Finset.range (s.config.kernel 10).dim := by
    rw [Finset.mem_range, Kernel.center]
    omega
  have hcell : (s.config.kernel 10).weight (s.config.kernel 10).center (s.config.kernel 10).center
      = (s.config.kernel 10).div := by
    rw [kernel_ten_weight _ (Finset.mem_range.1 hcenter) (Finset.mem_range.1 hcenter), if_pos ⟨rfl, rfl⟩]
  rw [accumulate_sourceBuffer _ hok y x hch, Finset.sum_eq_single_of_mem _ hcenter,
    Finset.sum_eq_single_of_mem _ hcenter]
  · rw [sub_add_cancel, sub_add_cancel, wrap_natCast hy, wrap_natCast hx, hcell]
  · intro j hj hne
    rw [kernel_ten_weight _ (Finset.mem_range.1 hcenter) (Finset.mem_range.1 hj), if_neg fun h => hne h.2, mul_zero]
  · intro i hi hne
    refine Finset.sum_eq_zero fun j hj => ?_
    rw [kernel_ten_weight _ (Finset.mem_range.1 hi) (Finset.mem_range.1 hj), if_neg fun h => hne h.1, mul_zero]

/-- The weighted sum of `identity` is the sample's value (44 R137 (b), R150). -/
theorem weightedSum_kernel_ten {s : State} (hok : sourceOk s = true) {y x ch : Nat} (hy : y < s.srcH.toNat)
    (hx : x < s.srcW.toNat) (hch : ch < cfgDepth s.srcCfg) :
    weightedSum (s.config.kernel 10) s y x ch = (srcAt s y x ch : ℚ) / ((cfgFormat s.srcCfg).scale : ℚ) := by
  obtain ⟨_, hdiv⟩ := kernel_pos s.config 10
  have hdiv' : ((s.config.kernel 10).div : ℚ) ≠ 0 := Nat.cast_ne_zero.2 hdiv.ne'
  rw [weightedSum_eq_div _ hok y x hch, accumulate_kernel_ten hok hy hx hch]
  push_cast
  exact mul_div_mul_right _ _ hdiv'

/-- `identity` completes, and each of its words is the narrowed value of the source word at the same address
(44 R150). -/
theorem exec_identity_completed {s : State} (hok : sourceOk s = true)
    (hfit : s.srcH.toNat * s.srcW.toNat * cfgDepth s.srcCfg ≤ s.config.params.dstCap) :
    ∃ t, exec .identity s = .next t
      ∧ Completed s t s.srcH.toNat s.srcW.toNat (cfgDepth s.srcCfg) .u8 (cfgOrder s.srcCfg)
      ∧ ∀ k, k < sourceSize s →
          (dstWord t k).toNat
            = narrowed s (((srcWord s k).toNat : ℚ) / ((cfgFormat s.srcCfg).scale : ℚ)) := by
  obtain ⟨t, hexec, hcompleted, hdst⟩ := kernelResult .identity 10 s rfl hok hfit
  refine ⟨t, hexec, hcompleted, fun k hk => ?_⟩
  obtain ⟨y, x, ch, hy, hx, hch, rfl⟩ := exists_sampleIndex hk
  exact (hdst y x ch hy hx hch).trans (congrArg (narrowed s) (weightedSum_kernel_ten hok hy hx hch))

theorem zext32_toNat_word (w : Word) : zext32 w.toNat = w := BitVec.eq_of_toNat_eq (zext32_toNat w.isLt)

/-- A configuration word without reserved bits, one of sixteen, is the word of its fields (10_state R27,
20_memory R66). -/
theorem cfgOf_fields_of_reserved {cfg : Word} (h : cfgReserved cfg = 0) :
    cfgOf (cfgDepth cfg) (cfgFormat cfg) (cfgOrder cfg) = cfg := by
  have hsixteen : ∀ n < 16, cfgOf (cfgDepth (zext32 n)) (cfgFormat (zext32 n)) (cfgOrder (zext32 n)) = zext32 n := by
    decide
  rw [cfgReserved_eq] at h
  rw [← zext32_toNat_word cfg]
  exact hsixteen cfg.toNat (by omega)

/-- Narrowing a grayscale `YM` raw rounds its value: no clipping occurs (44 R150). -/
theorem narrowed_ym_raw {s : State} (hd : cfgDepth s.srcCfg = 1) {n : Nat} (hn : n ≤ 255000) :
    (narrowed s ((n : ℚ) / 1000) : Int) = rndRat s.config.params.tie ((n : ℚ) / 1000) := by
  have hrnd : rnd s.config.params.tie n 1000 = rndRat s.config.params.tie ((n : ℚ) / 1000) :=
    rnd_eq_rndRat s.config.params.tie n 1000 (by omega)
  obtain ⟨hlow, hhigh⟩ := rnd_bounds s.config.params.tie n 0 255 1000 (by omega) (by omega) (by omega)
  rw [hrnd] at hlow hhigh
  rw [narrowed, if_pos hd, clip_of_mem _ hlow hhigh]

/-- Settles O41: in `U8` narrowing keeps every word, and the descriptor written is the source's; a `YM` value is
rounded. -/
theorem identityReturnsSource : Obligations.IdentityReturnsSource := by
  intro s hok hfit
  obtain ⟨hreserved, hd, _, _, hfmt, hraw⟩ := sourceOk_tests hok
  obtain ⟨t, hexec, hcompleted, hwords⟩ := exec_identity_completed hok hfit
  refine ⟨t, hexec, fun hu8 => ?_, fun hym => ?_⟩
  · rw [hu8] at hwords hraw
    have hkept : ∀ k < sourceSize s, dstWord t k = srcWord s k := fun k hk => by
      refine BitVec.eq_of_toNat_eq ?_
      rw [hwords k hk, Format.scale, Nat.cast_one, div_one, narrowed_natCast s (hraw k hk)]
    have hh : t.dstH = s.srcH := hcompleted.dstH.trans (zext32_toNat_word _)
    have hw : t.dstW = s.srcW := hcompleted.dstW.trans (zext32_toNat_word _)
    have hcfg : t.dstCfg = s.srcCfg :=
      hcompleted.dstCfg.trans (hu8 ▸ cfgOf_fields_of_reserved hreserved)
    have hsize : (destBuffer t).size = sourceSize s := by
      rw [destBuffer, Buffer.size, sourceSize, hh, hw, hcfg]
    exact ⟨hh, hw, hcfg, (sourceBuffer_eq_destBuffer hh.symm hw.symm hcfg.symm fun k hk =>
      (hkept k (hk.trans_eq hsize)).symm).symm, hkept⟩
  · have hd1 : cfgDepth s.srcCfg = 1 := hd.resolve_right fun hcolour => hfmt ⟨hym, hcolour⟩
    rw [hym] at hwords hraw
    refine ⟨hd1 ▸ hcompleted, fun k hk => ?_⟩
    rw [hwords k hk]
    exact narrowed_ym_raw hd1 (hraw k hk)

end Sys2Proof
end

section
/-! The laws of the geometric transform set (45_geometric R168): an equation for the samples of each transform
composed there, and the compositions that R168 names, each a remap whose positions cancel. -/

namespace Sys2Proof

open Machine Claims

/-! ### The samples of each transform -/

theorem rot90_sample {S : Buffer} {y x c : Nat} (hy : y < S.w) (hx : x < S.h) (hc : c < S.d) :
    (rot90 S).sample y x c = S.sample (S.h - 1 - x) y c := tabulate_sample hy hx hc

theorem rotm90_sample {S : Buffer} {y x c : Nat} (hy : y < S.w) (hx : x < S.h) (hc : c < S.d) :
    (rotm90 S).sample y x c = S.sample x (S.w - 1 - y) c := tabulate_sample hy hx hc

theorem rot180_sample {S : Buffer} {y x c : Nat} (hy : y < S.h) (hx : x < S.w) (hc : c < S.d) :
    (rot180 S).sample y x c = S.sample (S.h - 1 - y) (S.w - 1 - x) c := tabulate_sample hy hx hc

theorem horFlip_sample {S : Buffer} {y x c : Nat} (hy : y < S.h) (hx : x < S.w) (hc : c < S.d) :
    (horFlip S).sample y x c = S.sample y (S.w - 1 - x) c := tabulate_sample hy hx hc

theorem vertFlip_sample {S : Buffer} {y x c : Nat} (hy : y < S.h) (hx : x < S.w) (hc : c < S.d) :
    (vertFlip S).sample y x c = S.sample (S.h - 1 - y) x c := tabulate_sample hy hx hc

theorem negate_sample {S : Buffer} {y x c : Nat} (hy : y < S.h) (hx : x < S.w) (hc : c < S.d) :
    (negate S).sample y x c = 255 * S.fmt.scale - S.sample y x c := tabulate_sample hy hx hc

theorem transpose_sample {S : Buffer} {y x c : Nat} (hy : y < S.w) (hx : x < S.h) (hc : c < S.d) :
    (transpose S).sample y x c = S.sample x y c := tabulate_sample hy hx hc

/-! ### Remaps -/

/-- Two remaps whose samples agree inside the shape are equal. -/
theorem remap_congr {S : Buffer} {h w : Nat} {f g : Nat → Nat → Nat → Nat}
    (hfg : ∀ y x c, y < h → x < w → c < S.d → f y x c = g y x c) : remap S h w f = remap S h w g :=
  Buffer.ext_samples rfl rfl rfl rfl rfl (tabulate_raw_length ..) (tabulate_raw_length ..) fun y x c hy hx hc =>
    (tabulate_sample hy hx hc).trans ((hfg y x c hy hx hc).trans (tabulate_sample hy hx hc).symm)

/-- A remap that reads every sample from its own position is the identity. -/
theorem remap_eq_self {S : Buffer} (hS : S.wellFormed = true) {f : Nat → Nat → Nat → Nat}
    (hf : ∀ y x c, y < S.h → x < S.w → c < S.d → f y x c = S.sample y x c) : remap S S.h S.w f = S := by
  obtain ⟨_, _, _, _, hlen, _⟩ := (wellFormed_iff S).1 hS
  exact Buffer.ext_samples rfl rfl rfl rfl rfl (tabulate_raw_length ..) hlen fun y x c hy hx hc =>
    (tabulate_sample hy hx hc).trans (hf y x c hy hx hc)

/-- The reversed index of 45 R161 to R165 stays in range. -/
theorem reverse_lt {n i : Nat} (h : i < n) : n - 1 - i < n := by omega

theorem reverse_reverse {n i : Nat} (h : i < n) : n - 1 - (n - 1 - i) = i := by omega

/-! ### The compositions of R168 -/

theorem rot90_rot90 (S : Buffer) : rot90 (rot90 S) = rot180 S :=
  remap_congr (S := S) fun _ _ _ hy hx hc => rot90_sample (reverse_lt hx) hy hc

theorem rot180_rot180 {S : Buffer} (hS : S.wellFormed = true) : rot180 (rot180 S) = S :=
  remap_eq_self hS fun y x c hy hx hc => by
    calc (rot180 S).sample (S.h - 1 - y) (S.w - 1 - x) c
        = S.sample (S.h - 1 - (S.h - 1 - y)) (S.w - 1 - (S.w - 1 - x)) c :=
          rot180_sample (reverse_lt hy) (reverse_lt hx) hc
      _ = S.sample y x c := by rw [reverse_reverse hy, reverse_reverse hx]

theorem rotm90_rot90 {S : Buffer} (hS : S.wellFormed = true) : rotm90 (rot90 S) = S :=
  remap_eq_self hS fun y x c hy hx hc => by
    calc (rot90 S).sample x (S.h - 1 - y) c
        = S.sample (S.h - 1 - (S.h - 1 - y)) x c := rot90_sample hx (reverse_lt hy) hc
      _ = S.sample y x c := by rw [reverse_reverse hy]

theorem rot90_rotm90 {S : Buffer} (hS : S.wellFormed = true) : rot90 (rotm90 S) = S :=
  remap_eq_self hS fun y x c hy hx hc => by
    calc (rotm90 S).sample (S.w - 1 - x) y c
        = S.sample y (S.w - 1 - (S.w - 1 - x)) c := rotm90_sample (reverse_lt hx) hy hc
      _ = S.sample y x c := by rw [reverse_reverse hx]

theorem horFlip_horFlip {S : Buffer} (hS : S.wellFormed = true) : horFlip (horFlip S) = S :=
  remap_eq_self hS fun y x c hy hx hc => by
    calc (horFlip S).sample y (S.w - 1 - x) c
        = S.sample y (S.w - 1 - (S.w - 1 - x)) c := horFlip_sample hy (reverse_lt hx) hc
      _ = S.sample y x c := by rw [reverse_reverse hx]

theorem vertFlip_vertFlip {S : Buffer} (hS : S.wellFormed = true) : vertFlip (vertFlip S) = S :=
  remap_eq_self hS fun y x c hy hx hc => by
    calc (vertFlip S).sample (S.h - 1 - y) x c
        = S.sample (S.h - 1 - (S.h - 1 - y)) x c := vertFlip_sample (reverse_lt hy) hx hc
      _ = S.sample y x c := by rw [reverse_reverse hy]

theorem horFlip_vertFlip (S : Buffer) : horFlip (vertFlip S) = rot180 S :=
  remap_congr (S := S) fun _ _ _ hy hx hc => vertFlip_sample hy (reverse_lt hx) hc

theorem vertFlip_horFlip (S : Buffer) : vertFlip (horFlip S) = rot180 S :=
  remap_congr (S := S) fun _ _ _ hy hx hc => horFlip_sample (reverse_lt hy) hx hc

theorem horFlip_transpose (S : Buffer) : horFlip (transpose S) = rot90 S :=
  remap_congr (S := S) fun _ _ _ hy hx hc => transpose_sample hy (reverse_lt hx) hc

/-- The raws of a well-formed buffer are within its format's range, so negating twice loses nothing. -/
theorem negate_negate {S : Buffer} (hS : S.wellFormed = true) : negate (negate S) = S :=
  remap_eq_self hS fun y x c hy hx hc => by
    calc 255 * S.fmt.scale - (negate S).sample y x c
        = 255 * S.fmt.scale - (255 * S.fmt.scale - S.sample y x c) := by rw [negate_sample hy hx hc]
      _ = S.sample y x c := Nat.sub_sub_self (sample_le hS hy hx hc)

/-! ### Sizes -/

theorem turned_size (p : Shape) : p.turned.size = p.size := congrArg (· * p.d) (Nat.mul_comm p.w p.h)

theorem halved_size_le {p : Shape} (hh : 1 ≤ p.h) (hw : 1 ≤ p.w) : p.halved.size ≤ p.size :=
  Nat.mul_le_mul_right p.d
    (Nat.mul_le_mul (show (p.h + 1) / 2 ≤ p.h by omega) (show (p.w + 1) / 2 ≤ p.w by omega))

/-- Settles O47: four quarter turns are two half turns, and every law is one of the compositions above. -/
theorem geometricLaws : Obligations.GeometricLaws := by
  intro S hS
  obtain ⟨hh, hw⟩ := wellFormed_dims hS
  have hfour : rot90 (rot90 (rot90 (rot90 S))) = S := by
    rw [rot90_rot90 S, rot90_rot90, rot180_rot180 hS]
  exact ⟨hfour, rotm90_rot90 hS, rot90_rotm90 hS, (rot90_rot90 S).symm, negate_negate hS, horFlip_horFlip hS,
    vertFlip_vertFlip hS, (horFlip_vertFlip S).symm, (vertFlip_horFlip S).symm, (horFlip_transpose S).symm,
    (turned_size S.shape).le, (turned_size S.shape).le, le_rfl, le_rfl, le_rfl, le_rfl,
    halved_size_le (p := S.shape) hh hw⟩

end Sys2Proof
end

section
/-! The results of the geometric operations (45_geometric R161 to R167), as they stand in `DST`. -/

namespace Sys2Proof

open Machine Claims

/-- An operation whose function is a remap of the source completes with the source's depth, format and channel order
(45 R160), every sample read by the remap from `SRC`. -/
theorem runOperation_remap {sh : Shape → Shape} {g : Buffer → Buffer} {s : State} {h w : Nat}
    {f v : Nat → Nat → Nat → Nat} (hlegal : ResultLegal sh fun _ S => .ok (g S)) (hok : sourceOk s = true)
    (hfit : (sh (sourceBuffer s).shape).size ≤ s.config.params.dstCap)
    (hg : g (sourceBuffer s) = remap (sourceBuffer s) h w f)
    (hv : ∀ y x ch, y < h → x < w → ch < cfgDepth s.srcCfg → f y x ch = v y x ch) :
    ∃ t, runOperation sh (fun _ S => .ok (g S)) s = .next t
      ∧ Completed s t h w (cfgDepth s.srcCfg) (cfgFormat s.srcCfg) (cfgOrder s.srcCfg)
      ∧ ∀ y x ch, y < h → x < w → ch < cfgDepth s.srcCfg → dstAt t w (cfgDepth s.srcCfg) y x ch = v y x ch := by
  obtain ⟨t, hexec, hcompleted, hdst⟩ := runOperation_completed hlegal hok hfit (congrArg Except.ok hg)
  exact ⟨t, hexec, hcompleted, fun y x ch hy hx hch =>
    (hdst y x ch hy hx hch).trans ((tabulate_sample hy hx hch).trans (hv y x ch hy hx hch))⟩

/-- Settles O43: each rotation is a remap, and the position it reads lies inside the source. -/
theorem rotationResults : Obligations.RotationResults := by
  intro s hok hfit
  have hturned : (Shape.turned (sourceBuffer s).shape).size ≤ s.config.params.dstCap :=
    (turned_size _).trans_le hfit
  refine ⟨?rot90, ?rotm90, ?rot180⟩
  case rot90 =>
    exact runOperation_remap rot90_legal hok hturned rfl fun y x ch hy hx hch =>
      sourceBuffer_sample_eq_srcAt s (reverse_lt hx) hy hch
  case rotm90 =>
    exact runOperation_remap rotm90_legal hok hturned rfl fun y x ch hy hx hch =>
      sourceBuffer_sample_eq_srcAt s hx (reverse_lt hy) hch
  case rot180 =>
    exact runOperation_remap rot180_legal hok hfit rfl fun y x ch hy hx hch =>
      sourceBuffer_sample_eq_srcAt s (reverse_lt hy)
        (reverse_lt hx) hch

/-- Settles O44: each flip is a remap that reverses one index. -/
theorem flipResults : Obligations.FlipResults := by
  intro s hok hfit
  constructor
  · exact runOperation_remap horFlip_legal hok hfit rfl fun y x ch hy hx hch =>
      sourceBuffer_sample_eq_srcAt s hy (reverse_lt hx) hch
  · exact runOperation_remap vertFlip_legal hok hfit rfl fun y x ch hy hx hch =>
      sourceBuffer_sample_eq_srcAt s (reverse_lt hy) hx hch

/-- Settles O45: row `y` of the result is row `2 · y` of the source, which lies inside it also when the size is odd. -/
theorem downscaleResult : Obligations.DownscaleResult := by
  intro s hok hfit
  obtain ⟨t, hexec, hcompleted, hdst⟩ :=
    runOperation_remap (h := (s.srcH.toNat + 1) / 2) (w := (s.srcW.toNat + 1) / 2) downscale_legal hok hfit rfl
      fun y x ch hy hx hch => sourceBuffer_sample_eq_srcAt s (y := 2 * y) (x := 2 * x) (by omega) (by omega) hch
  exact ⟨t, hexec, hcompleted, fun y x ch hy hx hch => hdst y x ch (by omega) (by omega) hch⟩

/-- A raw of a source that passes the check is within its format's range (20_memory R62). -/
theorem srcAt_le {s : State} (hok : sourceOk s = true) {y x c : Nat} (hy : y < s.srcH.toNat) (hx : x < s.srcW.toNat)
    (hc : c < cfgDepth s.srcCfg) : srcAt s y x c ≤ 255 * (cfgFormat s.srcCfg).scale :=
  (sourceBuffer_sample_eq_srcAt s hy hx hc).ge.trans (sample_le (sourceBuffer_wellFormed s hok) hy hx hc)

/-- A raw subtracted from the raw of 255 has the value 255 less its own: the division is exact in both formats
(45 R167). -/
theorem value_negated (fmt : Format) {r : Nat} (hr : r ≤ 255 * fmt.scale) :
    ((255 * fmt.scale - r : Nat) : ℚ) / (fmt.scale : ℚ) = 255 - (r : ℚ) / (fmt.scale : ℚ) := by
  have hscale : (fmt.scale : ℚ) ≠ 0 := Nat.cast_ne_zero.2 (Nat.pos_iff_ne_zero.1 (Format.scale_pos fmt))
  rw [Nat.cast_sub hr, sub_div, Nat.cast_mul, mul_div_cancel_right₀ _ hscale, Nat.cast_ofNat]

/-- Settles O46: the raw written is the raw of 255 less the source's, which divides to the value. -/
theorem negateResult : Obligations.NegateResult := by
  intro s hok hfit
  obtain ⟨t, hexec, hcompleted, hdst⟩ :=
    runOperation_remap (h := s.srcH.toNat) (w := s.srcW.toNat) negate_legal hok hfit rfl fun y x ch hy hx hch =>
      congrArg (255 * (cfgFormat s.srcCfg).scale - ·) (sourceBuffer_sample_eq_srcAt s hy hx hch)
  refine ⟨t, hexec, hcompleted, fun y x ch hy hx hch => ?_⟩
  rw [hdst y x ch hy hx hch]
  exact value_negated _ (srcAt_le hok hy hx hch)

end Sys2Proof
end

section
/-! The errors an operation can report (60_exceptions R181, R182, R190): `ShapeError` by the two checks before the
operation's own function, and `DomainError` by the two functions that can fail. -/

namespace Sys2Proof

open Machine Claims

/-- Either cause of `ShapeError` ends any operation with it (60_exceptions R181). -/
theorem exec_shapeError {i : Instr} {s : State} (hi : i.wellFormed = true)
    (hcause : sourceOk s = false ∨ s.config.params.dstCap < resultSizeIn i s) :
    exec i s = .next (completeErr .shape s) := by
  obtain ⟨sh, f, hm⟩ := exists_meaning i hi
  rw [hm.runs]
  rcases hcause with hbad | hlarge
  · exact runOperation_malformed hbad
  · exact runOperation_tooLarge (hlarge.trans_eq (hm.size (sourceBuffer s).shape).symm)

/-- The three ways an operation completes; `ShapeError` has one of its two causes (60_exceptions R181, R182, R186). -/
theorem exec_outcomes {i : Instr} {s t : State} (hi : i.wellFormed = true) (h : exec i s = .next t) :
    ((sourceOk s = false ∨ s.config.params.dstCap < resultSizeIn i s) ∧ t = completeErr .shape s)
    ∨ t = completeErr .domain s ∨ ∃ B, t = completeOk B s := by
  obtain ⟨sh, f, hm⟩ := exists_meaning i hi
  rw [hm.runs] at h
  rcases runOperation_cases h with
    ⟨hbad, ht⟩ | ⟨_, hlarge, ht⟩ | ⟨hok, _, e, he, ht⟩ | ⟨_, _, B, _, ht⟩
  · exact .inl ⟨.inl hbad, ht⟩
  · exact .inl ⟨.inr (hlarge.trans_eq (hm.size (sourceBuffer s).shape)), ht⟩
  · cases hm.domain _ _ _ (sourceBuffer_wellFormed s hok) he
    exact .inr (.inl ht)
  · exact .inr (.inr ⟨B, ht⟩)

/-- Settles O17: the two checks come before the operation's function, and the other completions set code 2 or keep
ECODE. -/
theorem shapeErrorOfEveryOperation : Obligations.ShapeErrorOfEveryOperation := by
  intro i s hi
  refine ⟨fun hcause => ⟨_, exec_shapeError hi hcause, failed_completeErr .shape s⟩, fun t hne ht hcode => ?_⟩
  rcases exec_outcomes hi ht with ⟨hcause, _⟩ | rfl | ⟨B, rfl⟩
  · exact hcause
  · have htwo : ecodeField (completeErr .domain s).status = 2 := ecodeField_errStatus .domain s.status
    omega
  · exact absurd ((ecodeField_okStatus s.status).symm.trans hcode) hne

/-- The operations whose function can fail (60_exceptions R182, R190). -/
def CanReportDomainError (i : Instr) : Prop := i = .halftone ∨ ∃ newMin newMax, i = .adjust newMin newMax

/-- The function of every other operation answers a buffer for every source. -/
theorem exec_total {i : Instr} (h : ¬CanReportDomainError i) :
    ∃ sh, ∃ g : Config → Buffer → Buffer, ∀ s, exec i s = runOperation sh (fun c S => .ok (g c S)) s := by
  cases i with
  | adjust newMin newMax => exact absurd (.inr ⟨newMin, newMax, rfl⟩) h
  | halftone => exact absurd (.inl rfl) h
  | _ => exact ⟨_, _, fun _ => rfl⟩

/-- From a started state, where ERR is 0 (20_memory R53), only the functions that can fail bring code 2. -/
theorem canReportDomainError_of_exec {i : Instr} {s : State} (herr : errFlag s.status = false)
    (h : exec i s = .next (completeErr .domain s)) : CanReportDomainError i := by
  by_contra hnot
  obtain ⟨sh, g, hruns⟩ := exec_total hnot
  rw [hruns] at h
  have hcode : ecodeField (completeErr .domain s).status = 2 := ecodeField_errStatus .domain s.status
  have hset : errFlag (completeErr .domain s).status = true := errFlag_errStatus .domain s.status
  rcases runOperation_cases h with ⟨_, ht⟩ | ⟨_, _, ht⟩ | ⟨_, _, e, he, _⟩ | ⟨_, _, B, _, ht⟩
  · simp [ht, ErrorKind.code] at hcode
  · simp [ht, ErrorKind.code] at hcode
  · cases he
  · simp [ht, herr] at hset

/-- Settles O29: the two errors by their codes; an `Ok` result leaves ERR at 0. -/
theorem errorsOfEachOperation : Obligations.ErrorsOfEachOperation := by
  intro i s t hi herr ht hset
  rcases exec_outcomes hi ht with ⟨_, rfl⟩ | rfl | ⟨B, rfl⟩
  · exact .inl (ecodeField_errStatus .shape s.status)
  · exact .inr ⟨ecodeField_errStatus .domain s.status, canReportDomainError_of_exec herr ht⟩
  · have hkept : (completeOk B s).status.getLsbD 2 = s.status.getLsbD 2 := errFlag_okStatus s.status
    exact absurd hset (by rw [hkept, herr]; decide)

end Sys2Proof
end

section
/-! `Reset` (70_reset R210 to R212): what it clears, and how a command started after it ends. -/

namespace Sys2Proof

open Machine Claims

/-! ### The state `Reset` leaves -/

/-- Every register reads 0 after `Reset` (70 R210). -/
theorem readRegister_reset (n : Nat) (s : State) : readRegister n (perform .reset s) = 0 := by
  match n with
  | 0 | 2 | 3 | 4 | 5 | 6 => rfl
  | 1 => exact BitVec.zero_and
  | 7 => exact BitVec.zero_and
  | k + 8 => exact readRegister_of_ge (Nat.le_add_left 8 k) _

/-- A memory with nothing listed reads as the next draw's free value (70 R210, 10_state R33). -/
theorem srcWord_reset (s : State) (a : Nat) :
    srcWord (perform .reset s) a = Config.unspecifiedWord (s.draws + 1) .src a := rfl

theorem dstWord_reset (s : State) (a : Nat) :
    dstWord (perform .reset s) a = Config.unspecifiedWord (s.draws + 1) .dst a := rfl

/-- `STATUS` is 0 after `Reset`: no command is held and no result reported (70 R211, R212). -/
theorem status_reset (s : State) : (perform .reset s).status = 0 := rfl

theorem isBusy_reset (s : State) : isBusy (perform .reset s) = false :=
  (congrArg busyFlag (status_reset s)).trans (by decide)

theorem doneFlag_reset (s : State) : doneFlag (perform .reset s).status = false :=
  (congrArg doneFlag (status_reset s)).trans (by decide)

theorem errFlag_reset (s : State) : errFlag (perform .reset s).status = false :=
  (congrArg errFlag (status_reset s)).trans (by decide)

/-- A source of height 0 is malformed (20_memory R62 (3)). -/
theorem sourceOk_of_srcH_zero {s : State} (h : s.srcH = 0) : sourceOk s = false := by
  rw [Bool.eq_false_iff]
  intro hok
  obtain ⟨_, _, hheight, _⟩ := sourceOk_tests hok
  rw [h] at hheight
  exact absurd hheight (by decide)

/-- Settles O6, register by register and memory by memory. -/
theorem resetFromAnyState : Obligations.ResetFromAnyState := fun s =>
  ⟨fun n => readRegister_reset n s, status_reset s, rfl, fun a => ⟨srcWord_reset s a, dstWord_reset s a⟩, rfl⟩

/-- Settles O7: `Reset` leaves the CORE idle, so the engine's turn changes nothing. -/
theorem resetAbandonsHeldCommand : Obligations.ResetAbandonsHeldCommand := fun s _ =>
  ⟨isBusy_reset s, doneFlag_reset s, errFlag_reset s, engineTurn_idle (isBusy_reset s), readRegister_reset 5 s,
    readRegister_reset 6 s, readRegister_reset 7 s, dstWord_reset s⟩

/-! ### A command after `Reset` -/

/-- A held word that decodes fails with `ShapeError` over a malformed source (60_exceptions R181). -/
theorem engineTurn_malformed_failed {s : State} {i : Instr} (hbusy : isBusy s = true) (hd : decode s.cmd = .ok i)
    (hbad : sourceOk s = false) : ∃ t, engineTurn s = .next t ∧ Failed s t 1 :=
  ⟨_, (engineTurn_decoded hbusy hd).trans (exec_shapeError (decode_wellFormed hd) (.inl hbad)),
    failed_completeErr .shape s⟩

/-- Settles O8: the started command meets the malformed source `Reset` left, unless its word has a lookup error. -/
theorem commandAfterResetFails : Obligations.CommandAfterResetFails := by
  intro s w
  refine ⟨isBusy_reset s, doneFlag_reset s, errFlag_reset s, rfl, rfl, rfl, sourceOk_of_srcH_zero rfl, ?_⟩
  rw [perform_regWrite_idle (isBusy_reset s)]
  have hbusy : isBusy { regWriteIdle 0 w (perform .reset s) with response := none } = true :=
    busyFlag_startStatus _
  cases hd : decode w with
  | ok i => exact engineTurn_malformed_failed hbusy hd (sourceOk_of_srcH_zero rfl)
  | error e => cases e <;> exact engineTurn_lookupError_failed hbusy hd

end Sys2Proof
end
